-- ==== Sys2Proof/Word.lean ====
section
/-! DEFINITION. The words the sequencer handles: bytes, bus addresses and the 16-bit counters (R8, R51, R25, R32). -/

namespace Sys2Proof

/-- A byte: 8 bits, unsigned (R8). -/
abbrev Byte := BitVec 8

/-- A bus address `addr_h:addr_l` (R51, R52). -/
abbrev Addr := BitVec 16

/-- A 16-bit counter: REMAIN (R25) or STALL (R32). -/
abbrev Count := BitVec 16

end Sys2Proof
end

