-- ==== Sys2Proof/Syntax.lean ====
section
/-! DEFINITION. The requests of the host protocol: one constructor of `Instr` per row of the opcode map (R74). -/

namespace Sys2Proof

/-- A decoded request `Q = (op, p)`: an opcode byte and a payload of any length (R71). -/
structure Request where
  op      : Byte
  payload : List Byte
  deriving DecidableEq, Repr

/-- The ten commands of the opcode map (R74), with their operands decoded as R75 says. -/
inductive Instr where
  /-- ping (0x01): the payload is opaque, 0 to 8 bytes (R130). -/
  | ping (p : List Byte)
  /-- version (0x02) (R131). -/
  | version
  /-- status (0x03) (R132). -/
  | status
  /-- set_unlocked (0x04), with its flag byte (R140). -/
  | setUnlocked (b : Byte)
  /-- set_passthrough (0x05), with its flag byte (R141). -/
  | setPassthrough (b : Byte)
  /-- set_reset (0x06), with its flag byte (R142). -/
  | setReset (b : Byte)
  /-- read_block (0x07), with `addr_h` (R150). -/
  | readBlock (h : Byte)
  /-- write_block (0x08), with `addr_h` and the data, `data[o]` going to offset `o` (R151). -/
  | writeBlock (h : Byte) (data : List Byte)
  /-- rx_stream (0x09) (R160). -/
  | rxStream
  /-- tx_stream (0x0A) (R161). -/
  | txStream
  deriving DecidableEq, Repr

/-- The guarded commands (R104): exactly the ones that touch the bus or enter a stream. -/
inductive Guarded where
  | readBlock | writeBlock | rxStream | txStream
  deriving DecidableEq, Repr

end Sys2Proof
end

