-- ==== Sys2Proof/Config.lean ====
section
/-! DEFINITION. The parameters the spec leaves to the implementation (R7), as plain data, the syntactic
constants of R6, and the one free value of the model. -/

namespace Sys2Proof

/-- `PING_MAX` (R6). -/
abbrev pingMax : Nat := 8

/-- `BLOCK_SIZE` (R6). -/
abbrev blockSize : Nat := 256

/-- `BOOL_DECODE`: the two admitted maps from a flag byte to a bit (R76, D10). -/
inductive BoolDecode where
  | nonZero
  | bit0
  deriving DecidableEq, Repr

/-- `EXT_HIGH`: what the bus does at addresses 0x8000 to 0xFFFF (R55, D13). -/
inductive ExtHigh where
  /-- The default: a read is a free byte, a write replaces the byte at `A & 0x7FFF` by a free byte. -/
  | draw
  /-- `Alias`: the address used is `A & 0x7FFF`. -/
  | mirror
  deriving DecidableEq, Repr

/-- The levels `PT_LINES` gives to the two lines of passthrough (R141). -/
structure PtLevels where
  oe : Bool
  gb : Bool
  deriving DecidableEq, Repr

/-- `PT_LINES`: the line levels on leaving (v = 0) and on entering (v = 1) passthrough (R141, D15). -/
structure PtLines where
  leave : PtLevels
  enter : PtLevels
  deriving DecidableEq, Repr

/-- One text per guarded command: `LOCK_MSG` or `PT_MSG` (R111, R112, D11). -/
structure PolicyTexts where
  readBlock  : List Byte
  writeBlock : List Byte
  rxStream   : List Byte
  txStream   : List Byte
  deriving DecidableEq, Repr

/-- The states of a framing decoder (`CODEC.DecState`, R33). The first four belong to the reference framing,
`named n` is a state of a codec given by rows. -/
inductive DecState where
  /-- Between frames. -/
  | idle
  /-- The first length byte has been read. -/
  | len (hi : Byte)
  /-- The payload length is known, the opcode comes next. -/
  | opcode (n : Nat)
  /-- `n` payload bytes are to come; `got` holds those read, newest first. -/
  | body (op : Byte) (n : Nat) (got : List Byte)
  | named (n : Nat)
  deriving DecidableEq, Repr

/-- One row of a decoder: in state `src`, byte `b` leads to `dst` and completes `out`, if any. -/
structure DecRow where
  src : DecState
  b   : Byte
  dst : DecState
  out : Option Request
  deriving DecidableEq, Repr

/-- One row of an encoder: the response `(st, q)` is framed as `frame`. -/
structure EncRow where
  st    : Byte
  q     : List Byte
  frame : List Byte
  deriving DecidableEq, Repr

/-- `CODEC` (R7, D19), as plain data. On any finite run every codec is given by finitely many rows. -/
inductive Codec where
  /-- The reference framing: two length bytes, then opcode or status, then the payload. DESIGN CHOICE (log entry 2). -/
  | reference
  /-- A codec given by its rows. A (state, byte) pair with no row keeps the state and completes nothing,
  a response with no row goes out unframed. -/
  | rows (dec0 : DecState) (dec : List DecRow) (enc : List EncRow)
  deriving DecidableEq, Repr

/-- The parameters of R7. They are a field of State that no step writes, so a statement about every state
is a statement about every value of them. -/
structure Config where
  /-- `CHUNK_MAX` (D18). -/
  chunkMax   : Nat
  /-- `OUT_CAP` (D30). -/
  outCap     : Nat
  /-- `CODEC` (D19). -/
  codec      : Codec
  /-- `CODEC_RESET` (D19). -/
  codecReset : DecState
  /-- `BOOL_DECODE` (D10). -/
  boolDecode : BoolDecode
  /-- `LOCK_MSG` (D11). -/
  lockMsg    : PolicyTexts
  /-- `PT_MSG` (D11). -/
  ptMsg      : PolicyTexts
  /-- `PT_LINES` (D15). -/
  ptLines    : PtLines
  /-- `EXT_HIGH` (D13). -/
  extHigh    : ExtHigh
  deriving DecidableEq, Repr

/-- FREE VALUE: the bytes the default `EXT_HIGH` draws (R55, U9), in the order they are drawn. It has no body:
nothing can be proved of a byte of it (log entry 7). -/
opaque Config.freeByte : Nat → Byte

end Sys2Proof
end

