-- ==== Sys2Proof/WellFormed.lean ====
section
/-! DEFINITION. Well-formed requests: the payload lengths the opcode map admits (R74, R77). Where a constructor
has a fixed number of byte operands there is nothing to check. -/

namespace Sys2Proof

/-- The payload has a length that `admits` accepts (R77): at most 8 bytes for ping, 1 + 256 for write_block. -/
def Instr.wellFormed : Instr → Bool
  | .ping p            => decide (p.length ≤ pingMax)
  | .version           => true
  | .status            => true
  | .setUnlocked _     => true
  | .setPassthrough _  => true
  | .setReset _        => true
  | .readBlock _       => true
  | .writeBlock _ data => decide (data.length = blockSize)
  | .rxStream          => true
  | .txStream          => true

end Sys2Proof
end

