-- ==== Sys2Proof/Decode.lean ====
section
/-! DEFINITION. From request bytes to commands and back (R71, R74 to R78): the opcode byte first, then the payload.
The framing of these bytes on the wire is the codec's (Machine/Codec.lean). -/

namespace Sys2Proof

/-- Why bytes are no command. -/
inductive DecodeError where
  /-- No opcode byte. -/
  | noOpcode
  /-- An opcode outside 0x01..0x0A (R78). -/
  | unrecognized (op : Byte)
  /-- A recognized opcode with a payload length `admits` rejects (R77). -/
  | wrongLength (op : Byte)
  deriving DecidableEq, Repr

/-- `admit(op, L)` of R77. -/
def admits (op : Byte) (len : Nat) : Bool :=
  match op.toNat with
  | 0x01 => decide (len ≤ pingMax)
  | 0x02 | 0x03 | 0x09 | 0x0A => decide (len = 0)
  | 0x04 | 0x05 | 0x06 | 0x07 => decide (len = 1)
  | 0x08 => decide (len = 1 + blockSize)
  | _ => false

/-- The command a request names (R74, R75), or why it names none. -/
def decodeRequest (r : Request) : Except DecodeError Instr :=
  match r.op.toNat, r.payload with
  | 0x01, p => if p.length ≤ pingMax then .ok (.ping p) else .error (.wrongLength r.op)
  | 0x02, [] => .ok .version
  | 0x03, [] => .ok .status
  | 0x04, [b] => .ok (.setUnlocked b)
  | 0x05, [b] => .ok (.setPassthrough b)
  | 0x06, [b] => .ok (.setReset b)
  | 0x07, [h] => .ok (.readBlock h)
  | 0x08, h :: data => if data.length = blockSize then .ok (.writeBlock h data) else .error (.wrongLength r.op)
  | 0x09, [] => .ok .rxStream
  | 0x0A, [] => .ok .txStream
  | n, _ => if 0x01 ≤ n ∧ n ≤ 0x0A then .error (.wrongLength r.op) else .error (.unrecognized r.op)

/-- Decoding the bytes of a request: byte 0 is the opcode, the rest is the payload (R71). -/
def decode : List Byte → Except DecodeError Instr
  | []      => .error .noOpcode
  | op :: p => decodeRequest ⟨op, p⟩

/-- The opcode byte of a command (R74). -/
def opcode : Instr → Byte
  | .ping _           => 0x01
  | .version          => 0x02
  | .status           => 0x03
  | .setUnlocked _    => 0x04
  | .setPassthrough _ => 0x05
  | .setReset _       => 0x06
  | .readBlock _      => 0x07
  | .writeBlock _ _   => 0x08
  | .rxStream         => 0x09
  | .txStream         => 0x0A

/-- The opcode byte of a guarded command (R104). -/
def guardedOpcode : Guarded → Byte
  | .readBlock  => 0x07
  | .writeBlock => 0x08
  | .rxStream   => 0x09
  | .txStream   => 0x0A

/-- The payload of a command (R74, R75). -/
def payload : Instr → List Byte
  | .ping p            => p
  | .version           => []
  | .status            => []
  | .setUnlocked b     => [b]
  | .setPassthrough b  => [b]
  | .setReset b        => [b]
  | .readBlock h       => [h]
  | .writeBlock h data => h :: data
  | .rxStream          => []
  | .txStream          => []

/-- The request of a command. -/
def toRequest (i : Instr) : Request := ⟨opcode i, payload i⟩

/-- The bytes of a command's request (R71). -/
def encode (i : Instr) : List Byte := opcode i :: payload i

/-- The shortest payload length `admits` accepts (R77); 0 for an opcode outside the map. -/
def leastLength (op : Byte) : Nat :=
  match op.toNat with
  | 0x04 | 0x05 | 0x06 | 0x07 => 1
  | 0x08 => 1 + blockSize
  | _ => 0

/-- The first `n` bytes of `w`, the least significant first. -/
def bytesOf : Nat → Nat → List Byte
  | 0, _     => []
  | n + 1, w => BitVec.ofNat 8 w :: bytesOf n (w / 256)

/-- The request bytes of an opcode-table word: `nbits` bits of `w`, then zero bytes up to the shortest admitted
length (log entry 16). -/
def tableBytes (nbits w : Nat) : List Byte :=
  match bytesOf (nbits / 8) w with
  | []      => []
  | op :: p => op :: (p ++ List.replicate (leastLength op - p.length) 0)

/-- The command this decoder reads from an opcode-table word. -/
def decodeTableWord (nbits w : Nat) : Option Instr :=
  match decode (tableBytes nbits w) with
  | .ok i    => some i
  | .error _ => none

end Sys2Proof
end

