-- ==== Sys2Proof/Machine/Params.lean ====
section
/-! DEFINITION. The fixed values of R6, the response texts of R81 and the parameter values State.reset takes
(log entries 1 to 6). -/

namespace Sys2Proof.Machine

/-- `SPACE_SIZE`: the bytes of the external memory (R6, R50). -/
abbrev spaceSize : Nat := 32768

/-- `STREAM_LEN`: the bytes of one stream (R6). -/
abbrev streamLen : Count := 32768

/-- `STALL_LIMIT` (R6). -/
abbrev stallLimit : Nat := 1000

/-- `VERSION_MAJOR` (R6). -/
abbrev versionMajor : Byte := 2

/-- `VERSION_MINOR` (R6). -/
abbrev versionMinor : Byte := 1

/-- `STATUS_OK` (R6, R72). -/
abbrev statusOk : Byte := 0xFF

/-- `STATUS_ERR`, the status of every ErrorText (R6, R72). -/
abbrev statusErr : Byte := 0xFE

/-- The ASCII code of one upper-case hexadecimal digit: `H(d)` of R81. -/
def hexDigit (d : BitVec 4) : Byte :=
  if d.toNat ≤ 9 then BitVec.ofNat 8 (0x30 + d.toNat) else BitVec.ofNat 8 (0x41 + d.toNat - 10)

/-- `hex2(op)`: two upper-case digits, the high one first (R81). -/
def hex2 (op : Byte) : List Byte := [hexDigit (op.extractLsb' 4 4), hexDigit (op.extractLsb' 0 4)]

/-- The 23 ASCII bytes of "Unsupported command: 0x" (R81). -/
def unsupportedText : List Byte :=
  [0x55, 0x6E, 0x73, 0x75, 0x70, 0x70, 0x6F, 0x72, 0x74, 0x65, 0x64, 0x20, 0x63, 0x6F, 0x6D, 0x6D, 0x61, 0x6E, 0x64,
   0x3A, 0x20, 0x30, 0x78]

/-- The message of a protocol error (R81, R110). -/
def protocolText (op : Byte) : List Byte := unsupportedText ++ hex2 op

/-- The text of a guarded command in `LOCK_MSG` or `PT_MSG` (R111, R112). -/
def policyText (t : PolicyTexts) : Guarded → List Byte
  | .readBlock  => t.readBlock
  | .writeBlock => t.writeBlock
  | .rxStream   => t.rxStream
  | .txStream   => t.txStream

/-- Four texts that begin alike and end in the opcode. -/
def textsAfter (start : List Byte) : PolicyTexts where
  readBlock  := start ++ hex2 (guardedOpcode .readBlock)
  writeBlock := start ++ hex2 (guardedOpcode .writeBlock)
  rxStream   := start ++ hex2 (guardedOpcode .rxStream)
  txStream   := start ++ hex2 (guardedOpcode .txStream)

/-- `CODEC.dec0`, the initial decoder state (R33, R240). -/
def dec0 : Codec → DecState
  | .reference  => .idle
  | .rows d _ _ => d

/-- The parameter values in State.reset. The spec suggests CHUNK_MAX = 64 (R7) and decides the defaults of
`PT_LINES` (R141) and `EXT_HIGH` (R55). The rest is open there: DESIGN CHOICE, unsafe, log entries 1 to 6.
"Locked: " and "Passthrough: " with the opcode stand for the open texts. -/
def resetConfig : Config where
  chunkMax   := 64
  outCap     := 512
  codec      := .reference
  codecReset := .idle
  boolDecode := .nonZero
  lockMsg    := textsAfter [0x4C, 0x6F, 0x63, 0x6B, 0x65, 0x64, 0x3A, 0x20]
  ptMsg      := textsAfter [0x50, 0x61, 0x73, 0x73, 0x74, 0x68, 0x72, 0x6F, 0x75, 0x67, 0x68, 0x3A, 0x20]
  ptLines    := ⟨⟨true, false⟩, ⟨false, true⟩⟩
  extHigh    := .draw

end Sys2Proof.Machine
end

