-- ==== Sys2Proof/Machine/Codec.lean ====
section
/-! DEFINITION. `Decode` and `Encode` of the codec parameter (R10, R33, R71, R72, D19), and feeding a decoder from
the inbound window (R102). -/

namespace Sys2Proof.Machine

/-- A number as two bytes, the high one first (the reference framing's length). -/
def lenBytes (n : Nat) : List Byte := [BitVec.ofNat 8 (n / 256), BitVec.ofNat 8 n]

/-- The frame the reference framing puts around an opcode or a status and its payload. -/
def referenceFrame (head : Byte) (body : List Byte) : List Byte := lenBytes body.length ++ head :: body

/-- One byte fed to the reference framing's decoder. -/
def referenceDecode (d : DecState) (b : Byte) : DecState × Option Request :=
  match d with
  | .idle            => (.len b, none)
  | .len hi          => (.opcode (256 * hi.toNat + b.toNat), none)
  | .opcode 0        => (.idle, some ⟨b, []⟩)
  | .opcode (n + 1)  => (.body b (n + 1) [], none)
  | .body op (n + 2) got => (.body op (n + 1) (b :: got), none)
  | .body op _ got   => (.idle, some ⟨op, (b :: got).reverse⟩)
  | .named n         => (.named n, none)

/-- The first row of a decoder for a state and a byte. -/
def findDecRow (rows : List DecRow) (d : DecState) (b : Byte) : Option DecRow :=
  rows.find? (fun r => decide (r.src = d ∧ r.b = b))

/-- The first row of an encoder for a response. -/
def findEncRow (rows : List EncRow) (st : Byte) (q : List Byte) : Option EncRow :=
  rows.find? (fun r => decide (r.st = st ∧ r.q = q))

/-- `Decode(b)`: the decoder's next state and the request it completes, if any (R10). -/
def codecDecode (c : Codec) (d : DecState) (b : Byte) : DecState × Option Request :=
  match c with
  | .reference => referenceDecode d b
  | .rows _ rows _ =>
    match findDecRow rows d b with
    | some r => (r.dst, r.out)
    | none   => (d, none)

/-- `Encode(st, q)`: the framed bytes of a response (R10, R72). -/
def codecEncode (c : Codec) (st : Byte) (q : List Byte) : List Byte :=
  match c with
  | .reference => referenceFrame st q
  | .rows _ _ rows =>
    match findEncRow rows st q with
    | some r => r.frame
    | none   => st :: q

/-- What feeding bytes comes to: the decoder's state, the bytes not fed, the request completed, if any. -/
structure Fed where
  dec  : DecState
  rest : List Byte
  req  : Option Request
  deriving DecidableEq, Repr

/-- The loop of `CommandStep` (R102): bytes are fed until one request is complete or none is left. -/
def feed (c : Codec) : DecState → List Byte → Fed
  | d, [] => ⟨d, [], none⟩
  | d, b :: bs =>
    match codecDecode c d b with
    | (d', some r) => ⟨d', bs, some r⟩
    | (d', none)   => feed c d' bs

end Sys2Proof.Machine
end

