-- ==== Sys2Proof/Machine/State.lean ====
section
/-! DEFINITION. The machine's state (R20), the state after power-up (R240, R242), and why a step can stop. -/

namespace Sys2Proof.Machine

/-- `MODE` (R22). -/
inductive Mode where
  | command | receiveStream | transmitStream
  deriving DecidableEq, Repr

/-- `FLAGS` (R23): bit 0 is U, bit 1 is P, bit 2 is R. -/
structure Flags where
  u : Bool
  p : Bool
  r : Bool
  deriving DecidableEq, Repr

/-- `LINES` (R26): bit 0 is OE, bit 1 is GB, bit 2 is RST; true means asserted. -/
structure Lines where
  oe  : Bool
  gb  : Bool
  rst : Bool
  deriving DecidableEq, Repr

/-- `BUS_CFG` (R27). -/
inductive BusCfg where
  | idle | read | write
  deriving DecidableEq, Repr

/-- The events of `HIST` (R35). -/
inductive BusEvent where
  | cfg (c : BusCfg)
  | lines (l : Lines)
  | rd (a : Addr) (v : Byte)
  | wr (a : Addr) (v : Byte)
  deriving DecidableEq, Repr

/-- What may happen between two iterations (R36, R40, R58, R204). -/
inductive EnvEvent where
  /-- `rst_evt`: sets RST_LATCH. -/
  | busReset
  /-- `tick_evt`: sets TICK_LATCH. -/
  | tick
  /-- `susp_evt`: no effect (R221). -/
  | suspended
  /-- `resume_evt`: no effect (R221). -/
  | resumed
  /-- `configured_evt`: no effect (R222). -/
  | configured
  /-- The GB replaces one byte of MEM, if FLAGS.P = 1 (R58). -/
  | gbWrite (a : BitVec 15) (v : Byte)
  deriving DecidableEq, Repr

/-- The environment's choices for one iteration (R39, R40, R58, U11, U16). -/
structure Draw where
  /-- What happens before the iteration, in order. -/
  events     : List EnvEvent
  /-- Whether the host's next chunk is available to `refill_inbound`. -/
  chunkAvail : Bool
  /-- Whether the transport is ready for `drain_outbound`. -/
  ready      : Bool
  deriving DecidableEq, Repr

/-- External memory: the listed bytes, addresses strictly rising, none equal to what an unlisted address reads as. -/
abbrev Memory := List Host.Cell

/-- The state: one field per row of R20's table, then the model's own fields. -/
structure State where
  /-- `MODE` (R22). -/
  mode      : Mode
  /-- `FLAGS` (R23). -/
  flags     : Flags
  /-- `CUR_H` (R24). -/
  curH      : Byte
  /-- `CUR_L` (R24). -/
  curL      : Byte
  /-- `REMAIN` (R25). -/
  remain    : Count
  /-- `STALL` (R32). -/
  stall     : Count
  /-- `LINES` (R26). -/
  lines     : Lines
  /-- `BUS_CFG` (R27). -/
  busCfg    : BusCfg
  /-- `RST_LATCH` (R28). -/
  rstLatch  : Bool
  /-- `TICK_LATCH` (R29). -/
  tickLatch : Bool
  /-- `IN` (R30). -/
  inWin     : List Byte
  /-- `OUT` (R31). -/
  outWin    : List Byte
  /-- `DEC` (R33). -/
  dec       : DecState
  /-- `MEM` (R34, R50). -/
  mem       : Memory
  /-- `HIST` (R35), the newest event first (log entry 11). -/
  hist      : List BusEvent
  /-- The model's own: the parameters of R7. No step writes it. -/
  cfg       : Config
  /-- The model's own: the environment's choices for the iterations to come (log entry 9). -/
  draws     : List Draw
  /-- The model's own: the chunks the host has still to deliver, the next one first (log entry 10). -/
  hostIn    : List (List Byte)
  /-- The model's own: the slices handed to the host, the newest first (log entry 10). -/
  hostOut   : List (List Byte)
  /-- The model's own: how many free bytes have been drawn (log entry 7). -/
  drawn     : Nat
  deriving DecidableEq, Repr

/-- The state at power-up (R240) of a machine with parameters `c` and memory contents `m`. -/
def State.boot (c : Config) (m : Memory) : State where
  mode      := .command
  flags     := ⟨false, false, false⟩
  curH      := 0
  curL      := 0
  remain    := 0
  stall     := 0
  lines     := ⟨false, false, false⟩
  busCfg    := .idle
  rstLatch  := false
  tickLatch := false
  inWin     := []
  outWin    := []
  dec       := dec0 c.codec
  mem       := m
  hist      := []
  cfg       := c
  draws     := []
  hostIn    := []
  hostOut   := []
  drawn     := 0

/-- The machine right after power-up (R240, R242), with the parameters of log entries 1 to 6 and no memory byte
listed (log entry 8). -/
def State.reset : State := State.boot resetConfig []

/-- Why the machine stops. The hardware has no fatal state (R202): each constructor is a broken premise about the
environment, so that each is safe (the model stops where the spec gives no behaviour). -/
inductive Fault where
  /-- Raised by `respond`: the encoded response to the request with this opcode is longer than OUT_CAP
  (R31, R114, D30). Safe. -/
  | responseTooLong (op : Byte)
  /-- Raised by `transmitStep`: a stream chunk is longer than OUT_CAP, against `OUT_CAP ≥ CHUNK_MAX`
  (R164, D30). Safe. -/
  | chunkTooLong
  /-- Raised by `outInstall` on a non-empty OUT, against its premise (R31). No step reaches it. Safe. -/
  | outNotEmpty
  deriving DecidableEq, Repr

/-- Why the model gives no meaning. -/
inductive Refusal where
  /-- Raised by an arm of `exec` whose instruction has no meaning yet. Safe. No arm raises it now. -/
  | notModelled (mnemonic : String)
  deriving DecidableEq, Repr

/-- What a meaning or a step answers. -/
abbrev Result := Host.Outcome State Fault Refusal

end Sys2Proof.Machine
end

