-- ==== Sys2Proof/Machine/Flags.lean ====
section
/-! DEFINITION. Flag bytes, the bits of FLAGS and LINES, and the encodings of MODE and BUS_CFG (R22, R23, R26, R27,
R76, R132, R141). -/

namespace Sys2Proof.Machine

/-- `BOOL_DECODE(b)` (R76). -/
def flagBit (d : BoolDecode) (b : Byte) : Bool :=
  match d with
  | .nonZero => decide (b ≠ 0)
  | .bit0    => b.getLsbD 0

/-- A flag as status reports it: 0x00 or 0x01 (R132, D9). -/
def flagByte (v : Bool) : Byte := if v then 1 else 0

/-- `PT_LINES(v)` (R141). -/
def ptLevels (c : PtLines) (v : Bool) : PtLevels := if v then c.enter else c.leave

/-- The 3 bits of `FLAGS` (R23). -/
def flagsBits (f : Flags) : BitVec 3 := BitVec.ofBool f.r ++ BitVec.ofBool f.p ++ BitVec.ofBool f.u

/-- The 3 bits of `LINES` (R26). -/
def linesBits (l : Lines) : BitVec 3 := BitVec.ofBool l.rst ++ BitVec.ofBool l.gb ++ BitVec.ofBool l.oe

/-- The encoding of `MODE` (R22). -/
def modeCode : Mode → BitVec 2
  | .command        => 0
  | .receiveStream  => 1
  | .transmitStream => 2

/-- The encoding of `BUS_CFG` (R27). -/
def busCfgCode : BusCfg → BitVec 2
  | .idle  => 0
  | .read  => 1
  | .write => 2

end Sys2Proof.Machine
end

