-- ==== Sys2Proof/Machine/Operands.lean ====
section
/-! DEFINITION. Addresses: `addr_h:addr_l`, the 256 addresses of a block, and the stream cursor (R24, R51, R75). -/

namespace Sys2Proof.Machine

/-- `h:o`, the bus address of offset `o` in block `h` (R51). -/
def busAddr (h o : Byte) : Addr := h ++ o

/-- The addresses of block `h`, offsets 0 to 255 in order (R150, R151). -/
def blockAddrs (h : Byte) : List Addr := (List.range blockSize).map (fun o => busAddr h (BitVec.ofNat 8 o))

/-- `CUR_H:CUR_L` (R24). -/
def cursor (s : State) : Addr := busAddr s.curH s.curL

/-- `A & 0x7FFF`, the memory address under a bus address (R50, R55). -/
def lowAddr (a : Addr) : Nat := a.toNat % spaceSize

end Sys2Proof.Machine
end

