-- ==== Sys2Proof/Machine/Ops.lean ====
section
/-! DEFINITION. The named operations every rule uses (R10): memory, the bus port, the windows, responses, errors
and Reset. -/

namespace Sys2Proof.Machine

/-! ### Memory -/

/-- What an unlisted address reads as. The spec leaves the boot contents open (R61): DESIGN CHOICE, unsafe
(log entry 8). -/
def unlistedByte : Byte := 0

/-- The byte at an address. -/
def Memory.read : Memory → Nat → Byte
  | [], _          => unlistedByte
  | (b, w) :: m, a => if a = b then w else Memory.read m a

/-- A memory without an address. -/
def Memory.erase : Memory → Nat → Memory
  | [], _          => []
  | (b, w) :: m, a => if a = b then Memory.erase m a else (b, w) :: Memory.erase m a

/-- A memory with one more cell, put before the first cell of a higher address. -/
def Memory.insert : Memory → Nat → Byte → Memory
  | [], a, v          => [(a, v)]
  | (b, w) :: m, a, v => if a < b then (a, v) :: (b, w) :: m else (b, w) :: Memory.insert m a v

/-- One byte written, in canonical form: writing what an unlisted address reads as removes the cell. -/
def Memory.write (m : Memory) (a : Nat) (v : Byte) : Memory :=
  if v = unlistedByte then Memory.erase m a else Memory.insert (Memory.erase m a) a v

/-- Every address in the list is above `lo`, and they rise strictly. -/
def Memory.risingFrom : Nat → Memory → Bool
  | _, []            => true
  | lo, (a, _) :: m  => decide (lo ≤ a) && Memory.risingFrom (a + 1) m

/-- The canonical form: addresses strictly rising and inside the 32 KiB of R50, no cell equal to what an unlisted
address reads as. -/
def Memory.wf (m : Memory) : Bool :=
  Memory.risingFrom 0 m && m.all (fun c => decide (c.1 < spaceSize) && decide (c.2 ≠ unlistedByte))

/-! ### The bus port -/

/-- An event appended to HIST (R35). -/
def State.record (s : State) (e : BusEvent) : State := { s with hist := e :: s.hist }

/-- `BusCfg(c)` (R10, R27). -/
def State.setBusCfg (s : State) (c : BusCfg) : State := { s.record (.cfg c) with busCfg := c }

/-- `Lines(l)` (R10, R26). -/
def State.setLines (s : State) (l : Lines) : State := { s.record (.lines l) with lines := l }

/-- The next free byte of `EXT_HIGH` (R55, log entry 7). -/
def State.nextFree (s : State) : Byte := Config.freeByte s.drawn

/-- The state after a free byte has been drawn. -/
def State.drawByte (s : State) : State := { s with drawn := s.drawn + 1 }

/-- The byte `MemRead(A, 1)` returns (R53, R55). -/
def busValue (s : State) (a : Addr) : Byte :=
  if a.toNat < spaceSize then s.mem.read a.toNat
  else match s.cfg.extHigh with
    | .draw   => s.nextFree
    | .mirror => s.mem.read (lowAddr a)

/-- The state after an access at `a` has taken the free byte it needs, if it needs one (R55). -/
def afterDraw (s : State) (a : Addr) : State :=
  if a.toNat < spaceSize then s
  else match s.cfg.extHigh with
    | .draw   => s.drawByte
    | .mirror => s

/-- `MemRead(A, 1)` (R53): the byte and the state with its event. -/
def memRead (s : State) (a : Addr) : Byte × State :=
  (busValue s a, (afterDraw s a).record (.rd a (busValue s a)))

/-- The byte that a write of `v` at `A` leaves in MEM (R54, R55). -/
def storedByte (s : State) (a : Addr) (v : Byte) : Byte :=
  if a.toNat < spaceSize then v
  else match s.cfg.extHigh with
    | .draw   => s.nextFree
    | .mirror => v

/-- `MemWrite(A, 1, v)` (R54): below 0x8000, `lowAddr` is the address itself. -/
def memWrite (s : State) (a : Addr) (v : Byte) : State :=
  let t := (afterDraw s a).record (.wr a v)
  { t with mem := t.mem.write (lowAddr a) (storedByte s a v) }

/-- `MemRead` at each address, in order: the bytes and the state. -/
def memReads : List Addr → State → List Byte × State
  | [], s      => ([], s)
  | a :: as, s =>
    let r := memRead s a
    let rs := memReads as r.2
    (r.1 :: rs.1, rs.2)

/-- `MemWrite` at each address, in order. -/
def memWrites : List (Addr × Byte) → State → State
  | [], s           => s
  | (a, v) :: ws, s => memWrites ws (memWrite s a v)

/-- `Advance()` (R166). -/
def advance (s : State) : State :=
  if s.curL = 0xFF then { s with curL := 0, curH := s.curH + 1 } else { s with curL := s.curL + 1 }

/-! ### Responses -/

/-- `OutInstall(bytes)` (R10, R31): it needs OUT empty and no more than OUT_CAP bytes; `tooLong` is the fault of
the second premise. -/
def outInstall (tooLong : Fault) (bytes : List Byte) (s : State) : Result :=
  if s.outWin ≠ [] then .fault .outNotEmpty
  else if bytes.length ≤ s.cfg.outCap then .next { s with outWin := bytes }
  else .fault tooLong

/-- `respond(st, q)` to the request with opcode `op` (R10, R72). -/
def respond (op st : Byte) (q : List Byte) (s : State) : Result :=
  outInstall (.responseTooLong op) (codecEncode s.cfg.codec st q) s

/-- The Ok response to a request (R72, R80). -/
def respondOk (op : Byte) (q : List Byte) (s : State) : Result := respond op statusOk q s

/-! ### Errors and Reset -/

/-- Why control leaves the normal course (R200): the error responses and the two triggers of Reset (R209). -/
inductive Cause where
  /-- `E_PROTO` (R110). -/
  | protocol (op : Byte)
  /-- `E_LOCK` (R111). -/
  | lock (g : Guarded)
  /-- `E_PT` (R112). -/
  | passthrough (g : Guarded)
  /-- `E_STALL` (R206). -/
  | stall
  /-- `E_BUSRESET` (R205). -/
  | busReset
  deriving DecidableEq, Repr

/-- `Reset()` (R210). -/
def resetProcedure (s : State) : State :=
  { (s.setBusCfg .idle).setLines ⟨false, false, false⟩ with
    mode   := .command
    flags  := ⟨false, false, false⟩
    stall  := 0
    curH   := 0
    curL   := 0
    remain := 0
    inWin  := []
    outWin := []
    dec    := s.cfg.codecReset }

/-- Taking an error or a Reset. An error only responds (R105, R214): there is nothing to save and nothing to
return from (R215). -/
def takeCause (c : Cause) (s : State) : Result :=
  match c with
  | .protocol op   => respond op statusErr (protocolText op) s
  | .lock g        => respond (guardedOpcode g) statusErr (policyText s.cfg.lockMsg g) s
  | .passthrough g => respond (guardedOpcode g) statusErr (policyText s.cfg.ptMsg g) s
  | .stall         => .next (resetProcedure s)
  | .busReset      => .next (resetProcedure s)

/-- The guard of R103 and R104 around a guarded command: the lock check, then the passthrough check. -/
def guarded (g : Guarded) (body : State → Result) (s : State) : Result :=
  if s.flags.u = false then takeCause (.lock g) s
  else if s.flags.p = true then takeCause (.passthrough g) s
  else body s

end Sys2Proof.Machine
end

