-- ==== Sys2Proof/Machine/BlockCommands.lean ====
section
/-! DEFINITION. The block commands: read_block and write_block (R150, R151). Both are guarded. -/

namespace Sys2Proof.Machine

/-- The bus work of read_block (R150): Read, 256 reads in order, Idle. -/
def readBlockBus (h : Byte) (s : State) : List Byte × State :=
  let r := memReads (blockAddrs h) (s.setBusCfg .read)
  (r.1, r.2.setBusCfg .idle)

/-- The bus work of write_block (R151): Write, one write per data byte in order, Idle. -/
def writeBlockBus (h : Byte) (data : List Byte) (s : State) : State :=
  (memWrites ((blockAddrs h).zip data) (s.setBusCfg .write)).setBusCfg .idle

/-- read_block (R150). -/
def execReadBlock (h : Byte) (s : State) : Result :=
  guarded .readBlock (fun s => respondOk 0x07 (readBlockBus h s).1 (readBlockBus h s).2) s

/-- write_block (R151): data of another length than 256 is a protocol error, before the guard (R77, R103). -/
def execWriteBlock (h : Byte) (data : List Byte) (s : State) : Result :=
  if data.length = blockSize then guarded .writeBlock (fun s => respondOk 0x08 [] (writeBlockBus h data s)) s
  else takeCause (.protocol 0x08) s

end Sys2Proof.Machine
end

