-- ==== Sys2Proof/Machine/FlagCommands.lean ====
section
/-! DEFINITION. The flag commands: set_unlocked, set_passthrough, set_reset (R140 to R142). None is guarded. -/

namespace Sys2Proof.Machine

/-- `FLAGS.U <- v` (R140). -/
def State.setU (s : State) (v : Bool) : State := { s with flags := { s.flags with u := v } }

/-- `FLAGS.P <- v` and the passthrough lines (R141). -/
def State.setP (s : State) (v : Bool) : State :=
  { s with flags := { s.flags with p := v } }.setLines
    ⟨(ptLevels s.cfg.ptLines v).oe, (ptLevels s.cfg.ptLines v).gb, s.lines.rst⟩

/-- `FLAGS.R <- v` and the reset line (R142). -/
def State.setR (s : State) (v : Bool) : State :=
  { s with flags := { s.flags with r := v } }.setLines ⟨s.lines.oe, s.lines.gb, v⟩

/-- set_unlocked (R140). -/
def execSetUnlocked (b : Byte) (s : State) : Result :=
  respondOk 0x04 [] (s.setU (flagBit s.cfg.boolDecode b))

/-- set_passthrough (R141). -/
def execSetPassthrough (b : Byte) (s : State) : Result :=
  respondOk 0x05 [] (s.setP (flagBit s.cfg.boolDecode b))

/-- set_reset (R142). -/
def execSetReset (b : Byte) (s : State) : Result :=
  respondOk 0x06 [] (s.setR (flagBit s.cfg.boolDecode b))

end Sys2Proof.Machine
end

