-- ==== Sys2Proof/Machine/InfoCommands.lean ====
section
/-! DEFINITION. The information commands: ping, version, status (R130 to R132). None is guarded. -/

namespace Sys2Proof.Machine

/-- ping (R130): echoes exactly the payload; more than 8 bytes are a protocol error (R77). -/
def execPing (p : List Byte) (s : State) : Result :=
  if p.length ≤ pingMax then respondOk 0x01 p s else takeCause (.protocol 0x01) s

/-- version (R131): major, then minor. -/
def execVersion (s : State) : Result := respondOk 0x02 [versionMajor, versionMinor] s

/-- The three bytes status reports (R132). -/
def statusBytes (f : Flags) : List Byte := [flagByte f.u, flagByte f.p, flagByte f.r]

/-- status (R132): U, P, R. -/
def execStatus (s : State) : Result := respondOk 0x03 (statusBytes s.flags) s

end Sys2Proof.Machine
end

