-- ==== Sys2Proof/Machine/StreamCommands.lean ====
section
/-! DEFINITION. The stream commands, rx_stream and tx_stream (R160, R161), and the stream steps (R162 to R165). -/

namespace Sys2Proof.Machine

/-- Entering a stream: the cursor at 0, 32768 bytes to come, the bus configured (R160, R161). -/
def enterStream (m : Mode) (c : BusCfg) (s : State) : State :=
  { { s with curH := 0, curL := 0, remain := streamLen }.setBusCfg c with mode := m }

/-- rx_stream (R160). -/
def execRxStream (s : State) : Result :=
  guarded .rxStream (fun s => respondOk 0x09 [] (enterStream .receiveStream .write s)) s

/-- tx_stream (R161). -/
def execTxStream (s : State) : Result :=
  guarded .txStream (fun s => respondOk 0x0A [] (enterStream .transmitStream .read s)) s

/-- Leaving a stream: `ReceiveComplete()` and `TransmitComplete()` (R163, R165). -/
def completeStream (s : State) : State := { s.setBusCfg .idle with mode := .command }

/-- One byte of a receive stream: written at the cursor, which advances (R162). -/
def receiveByte (b : Byte) (s : State) : State :=
  let t := advance (memWrite s (cursor s) b)
  { t with remain := t.remain - 1 }

/-- The loop of `ReceiveStep` over the inbound window (R162): what is left when REMAIN is 0 stays in IN. -/
def receiveBytes : List Byte → State → State
  | [], s      => { s with inWin := [] }
  | b :: bs, s => if s.remain = 0 then { s with inWin := b :: bs } else receiveBytes bs (receiveByte b s)

/-- `ReceiveStep()` (R162). -/
def receiveStep (s : State) : State :=
  let t := receiveBytes s.inWin s
  if t.remain = 0 then completeStream t else t

/-- The loop of `TransmitStep` (R164): `n` bytes read at the cursor, which advances after each. -/
def transmitBytes : Nat → State → List Byte × State
  | 0, s     => ([], s)
  | n + 1, s =>
    let r := memRead s (cursor s)
    let rs := transmitBytes n (advance r.2)
    (r.1 :: rs.1, rs.2)

/-- The bytes of the next chunk (R164): `min(REMAIN, CHUNK_MAX)`. -/
def chunkLength (s : State) : Nat := min s.remain.toNat s.cfg.chunkMax

/-- The state after the bytes of one chunk have been read (R164). -/
def afterChunk (s : State) : State :=
  let t := (transmitBytes (chunkLength s) s).2
  { t with remain := t.remain - BitVec.ofNat 16 (chunkLength s) }

/-- `TransmitStep()` (R164): completion first, then one raw chunk if OUT is empty. -/
def transmitStep (s : State) : Result :=
  if s.remain = 0 then .next (completeStream s)
  else if s.outWin ≠ [] then .next s
  else outInstall .chunkTooLong (transmitBytes (chunkLength s) s).1 (afterChunk s)

end Sys2Proof.Machine
end

