-- ==== Sys2Proof/Machine/Dispatch.lean ====
section
/-! DEFINITION. Dispatch of a decoded command to its meaning (R103): one arm per constructor. -/

namespace Sys2Proof.Machine

def exec (i : Instr) (s : State) : Host.Outcome State Fault Refusal :=
  match i with
  | .ping p => Sys2Proof.Machine.execPing p s
  | .version => Sys2Proof.Machine.execVersion s
  | .status => Sys2Proof.Machine.execStatus s
  | .setUnlocked b => Sys2Proof.Machine.execSetUnlocked b s
  | .setPassthrough b => Sys2Proof.Machine.execSetPassthrough b s
  | .setReset b => Sys2Proof.Machine.execSetReset b s
  | .readBlock h => Sys2Proof.Machine.execReadBlock h s
  | .writeBlock h data => Sys2Proof.Machine.execWriteBlock h data s
  | .rxStream => Sys2Proof.Machine.execRxStream s
  | .txStream => Sys2Proof.Machine.execTxStream s

end Sys2Proof.Machine
end

