-- ==== Sys2Proof/Machine/Environment.lean ====
section
/-! DEFINITION. The environment's steps: the events between iterations, refill and drain (R38 to R40, R58,
R221, R222). -/

namespace Sys2Proof.Machine

/-- One event between two iterations (R40, R58, R204). The GB moves only while FLAGS.P = 1. -/
def applyEvent (e : EnvEvent) (s : State) : State :=
  match e with
  | .busReset    => { s with rstLatch := true }
  | .tick        => { s with tickLatch := true }
  | .suspended   => s
  | .resumed     => s
  | .configured  => s
  | .gbWrite a v => if s.flags.p then { s with mem := s.mem.write a.toNat v } else s

/-- The events between two iterations, in order. -/
def applyEvents : List EnvEvent → State → State
  | [], s      => s
  | e :: es, s => applyEvents es (applyEvent e s)

/-- The draw of an iteration after the listed ones: nothing happens before it, and every transport step that can
happen does. DESIGN CHOICE, unsafe (log entry 9). -/
def eagerDraw : Draw := ⟨[], true, true⟩

/-- A draw in which the environment does nothing. -/
def quietDraw : Draw := ⟨[], false, false⟩

/-- The draw of the next iteration. -/
def nextDraw (s : State) : Draw := s.draws.headD eagerDraw

/-- The state in which the next iteration starts: its draw taken, its events applied. -/
def startIteration (s : State) : State := applyEvents (nextDraw s).events { s with draws := s.draws.tail }

/-- A chunk the transport can deliver (R39, U17): 1 to CHUNK_MAX bytes. -/
def chunkFits (s : State) (c : List Byte) : Bool := decide (1 ≤ c.length ∧ c.length ≤ s.cfg.chunkMax)

/-- `refill_inbound` (R39): the host's next chunk, if IN is empty and the chunk is available. -/
def refillInbound (avail : Bool) (s : State) : State :=
  match s.inWin, s.hostIn with
  | [], c :: cs => if avail && chunkFits s c then { s with inWin := c, hostIn := cs } else s
  | _, _        => s

/-- `drain_outbound` (R39, D37): one slice of at most CHUNK_MAX bytes, if OUT holds any and the transport is
ready. -/
def drainOutbound (ready : Bool) (s : State) : State :=
  if ready && decide (s.outWin ≠ []) then
    { s with hostOut := s.outWin.take s.cfg.chunkMax :: s.hostOut, outWin := s.outWin.drop s.cfg.chunkMax }
  else s

/-- `ENV` (R100): refill, then drain. -/
def environment (d : Draw) (s : State) : State := drainOutbound d.ready (refillInbound d.chunkAvail s)

end Sys2Proof.Machine
end

