-- ==== Sys2Proof/Machine/Watchdog.lean ====
section
/-! DEFINITION. The bus-reset check and the watchdog check, steps 1 and 2 of an iteration (R205 to R208). -/

namespace Sys2Proof.Machine

/-- `Stalled()` (R207). -/
def stalled (s : State) : Bool :=
  match s.mode with
  | .command        => decide (s.outWin ≠ [])
  | .receiveStream  => decide (s.inWin = [])
  | .transmitStream => decide (s.outWin ≠ [])

/-- STALL after the count of a tick (R206). -/
def nextStall (s : State) : Count := if stalled s then s.stall + 1 else 0

/-- What steps 1 and 2 of an iteration come to: a Reset was taken, or the mode step follows. -/
inductive Checked where
  | resetTaken (r : Result)
  | goOn (s : State)

/-- `WatchdogCheck()` (R206), on a state whose TICK_LATCH has been cleared. -/
def watchdogCheck (s : State) : Checked :=
  if (nextStall s).toNat > stallLimit then .resetTaken (takeCause .stall { s with stall := nextStall s })
  else .goOn { s with stall := nextStall s }

/-- Steps 1 and 2 of an iteration (R100, R205, R206): a bus reset leaves TICK_LATCH alone. -/
def checks (s : State) : Checked :=
  if s.rstLatch then .resetTaken (takeCause .busReset { s with rstLatch := false })
  else if s.tickLatch then watchdogCheck { s with tickLatch := false }
  else .goOn s

end Sys2Proof.Machine
end

