-- ==== Sys2Proof/Machine/Iteration.lean ====
section
/-! DEFINITION. One iteration (R100): the checks, the mode step, the environment; and placing a request where the
next iteration fetches it. -/

namespace Sys2Proof.Machine

/-- `Dispatch(op, p)` (R103): a request that is no command is a protocol error (R78, R110). -/
def dispatch (r : Request) (s : State) : Result :=
  match decodeRequest r with
  | .ok i    => exec i s
  | .error _ => takeCause (.protocol r.op) s

/-- What `CommandStep` finds in IN. -/
def fedFrom (s : State) : Fed := feed s.cfg.codec s.dec s.inWin

/-- The state after `CommandStep` has fed the codec. -/
def afterFeed (s : State) : State := { s with dec := (fedFrom s).dec, inWin := (fedFrom s).rest }

/-- `CommandStep()` (R102): nothing while a response is in flight, and at most one dispatch. -/
def commandStep (s : State) : Result :=
  if s.outWin ≠ [] then .next s
  else match (fedFrom s).req with
    | some r => dispatch r (afterFeed s)
    | none   => .next (afterFeed s)

/-- Step 3 of an iteration (R100). -/
def modeStep (s : State) : Result :=
  match s.mode with
  | .command        => commandStep s
  | .receiveStream  => .next (receiveStep s)
  | .transmitStream => transmitStep s

/-- The sequencer's part of an iteration, steps 1 to 3 (R100, R101). -/
def seqPart (s : State) : Result :=
  match checks s with
  | .resetTaken r => r
  | .goOn t       => modeStep t

/-- A further step where there is a next state. -/
def onNext (r : Result) (f : State → State) : Result :=
  match r with
  | .next s    => .next (f s)
  | .fault e   => .fault e
  | .refused e => .refused e

/-- `Iteration()` (R100), with the environment's choices taken from `draws`. -/
def iteration (s : State) : Result := onNext (seqPart (startIteration s)) (environment (nextDraw s))

/-- The frame of a request in the reference framing. -/
def requestFrame : List Byte → List Byte
  | []      => []
  | op :: p => referenceFrame op p

/-- The state whose next iteration completes and dispatches the request with these bytes (log entry 16): Command
mode, OUT empty, no bus reset pending, the reference framing, and the frame at the front of the stream: the last
CHUNK_MAX bytes of it (all, if it is shorter) in IN, and what comes before them in DEC. -/
def placeRequest (s : State) (bytes : List Byte) : State :=
  let f := requestFrame bytes
  let k := f.length - max 1 s.cfg.chunkMax
  { s with
    mode     := .command
    rstLatch := false
    outWin   := []
    inWin    := f.drop k
    dec      := (feed .reference .idle (f.take k)).dec
    cfg      := { s.cfg with codec := .reference }
    draws    := quietDraw :: s.draws }

end Sys2Proof.Machine
end

