-- ==== Sys2Proof/Machine/Step.lean ====
section
/-! DEFINITION. The step of the machine: one iteration (R100); and the host's way to place a request. -/

namespace Sys2Proof.Machine

/-- One iteration (R100). -/
def step : State → Host.Outcome State Fault Refusal := iteration

/-- The state whose next step fetches and runs the request of an opcode-table word (log entry 16). -/
def State.withFetchWord (s : State) (nbits w : Nat) : State := placeRequest s (tableBytes nbits w)

end Sys2Proof.Machine
end

