-- ==== Sys2Proof/Safety.lean ====
section
/-! DEFINITION. What claims are stated in: the access modes, the constraints on the parameters, the invariants of
R41, R59 and R67, quiescence. -/

namespace Sys2Proof.Machine

/-- The access modes of R216. -/
inductive AccessMode where
  | locked | passthrough | open
  deriving DecidableEq, Repr

/-- The access mode FLAGS defines (R216). -/
def accessMode (f : Flags) : AccessMode :=
  if f.u = false then .locked else if f.p = true then .passthrough else .open

/-- The guard of a command, for the four guarded ones (R104). -/
def guardOf : Instr → Option Guarded
  | .ping _           => none
  | .version          => none
  | .status           => none
  | .setUnlocked _    => none
  | .setPassthrough _ => none
  | .setReset _       => none
  | .readBlock _      => some .readBlock
  | .writeBlock _ _   => some .writeBlock
  | .rxStream         => some .rxStream
  | .txStream         => some .txStream

/-- A flag command (R140 to R142). -/
def isFlagCommand : Instr → Bool
  | .setUnlocked _    => true
  | .setPassthrough _ => true
  | .setReset _       => true
  | _                 => false

/-! ### Responses and events -/

/-- The state with the encoded response `(st, q)` in OUT and nothing else changed (R10, R72). -/
def answered (s : State) (st : Byte) (q : List Byte) : State := { s with outWin := codecEncode s.cfg.codec st q }

/-- The premises of R31 for a response: OUT is empty, and the encoded response fits. -/
def CanRespond (s : State) (st : Byte) (q : List Byte) : Prop :=
  s.outWin = [] ∧ (codecEncode s.cfg.codec st q).length ≤ s.cfg.outCap

/-- The events of reads that returned `vs`, the newest first. -/
def readEvents (as : List Addr) (vs : List Byte) : List BusEvent :=
  (List.zipWith (fun a v => BusEvent.rd a v) as vs).reverse

/-- The events of writes, the newest first. -/
def writeEvents (ws : List (Addr × Byte)) : List BusEvent := (ws.map (fun w => BusEvent.wr w.1 w.2)).reverse

/-- The bytes MEM holds under a row of bus addresses. -/
def bytesAt (m : Memory) (as : List Addr) : List Byte := as.map (fun a => m.read (lowAddr a))

/-- The `n` bus addresses from the cursor on (R166, R167). -/
def cursorAddrs (s : State) (n : Nat) : List Addr :=
  (List.range n).map (fun k => cursor s + BitVec.ofNat 16 k)

/-- An event that is an access to MEM. -/
def BusEvent.isAccess : BusEvent → Bool
  | .cfg _   => false
  | .lines _ => false
  | .rd _ _  => true
  | .wr _ _  => true

/-! ### Parameters -/

/-- The eight open texts (R113). -/
def policyTexts (c : Config) : List (List Byte) :=
  [c.lockMsg.readBlock, c.lockMsg.writeBlock, c.lockMsg.rxStream, c.lockMsg.txStream,
   c.ptMsg.readBlock, c.ptMsg.writeBlock, c.ptMsg.rxStream, c.ptMsg.txStream]

/-- An ASCII byte. -/
def isAscii (b : Byte) : Bool := decide (b.toNat < 128)

/-- R113: the eight texts are pairwise distinct, non-empty ASCII, and none is a protocol error's message. -/
def TextsDistinct (c : Config) : Prop :=
  (policyTexts c).Nodup ∧ (∀ t ∈ policyTexts c, t ≠ [] ∧ t.all isAscii = true) ∧
    ∀ t ∈ policyTexts c, ∀ op : Byte, t ≠ protocolText op

/-- The premises on OUT_CAP (R114, R164, D30): every response the rules produce fits when encoded, and so does a
stream chunk. Payloads of Ok and of protocol errors have at most 256 bytes. -/
def ConfigFits (c : Config) : Prop :=
  c.chunkMax ≤ c.outCap ∧
    ∀ (st : Byte) (q : List Byte), (q.length ≤ blockSize ∨ q ∈ policyTexts c) →
      (codecEncode c.codec st q).length ≤ c.outCap

/-! ### Invariants -/

/-- Items 2 and 3 of R41: where a stream is, the cursor and REMAIN agree. -/
def atStreamPosition (s : State) : Prop :=
  s.remain.toNat ≤ spaceSize ∧ (cursor s).toNat = spaceSize - s.remain.toNat

/-- Items 1 to 4 of R41: MODE, BUS_CFG, REMAIN and the cursor agree. -/
def ModeInv (s : State) : Prop :=
  match s.mode with
  | .command        => s.busCfg = .idle
  | .receiveStream  => s.busCfg = .write ∧ 1 ≤ s.remain.toNat ∧ atStreamPosition s
  | .transmitStream => s.busCfg = .read ∧ atStreamPosition s

/-- Item 5 of R41. -/
def StallInv (s : State) : Prop := s.stall.toNat ≤ stallLimit

/-- Item 6 of R41. -/
def WindowInv (s : State) : Prop := s.inWin.length ≤ s.cfg.chunkMax ∧ s.outWin.length ≤ s.cfg.outCap

/-- R59: the guard that let a stream begin holds for the whole of it. -/
def StreamGuardInv (s : State) : Prop := s.mode ≠ .command → s.flags.u = true ∧ s.flags.p = false

/-- The bus configuration after the events of a history, the newest first (R27). -/
def lastCfg : List BusEvent → BusCfg
  | []            => .idle
  | .cfg c :: _   => c
  | .lines _ :: h => lastCfg h
  | .rd _ _ :: h  => lastCfg h
  | .wr _ _ :: h  => lastCfg h

/-- R67: every read of a history, the newest event first, comes under Cfg(Read), every write under Cfg(Write). -/
def busOrdered : List BusEvent → Bool
  | []            => true
  | .cfg _ :: h   => busOrdered h
  | .lines _ :: h => busOrdered h
  | .rd _ _ :: h  => decide (lastCfg h = .read) && busOrdered h
  | .wr _ _ :: h  => decide (lastCfg h = .write) && busOrdered h

/-- BUS_CFG is what HIST says it is, and HIST is in order (R27, R67). -/
def HistInv (s : State) : Prop := lastCfg s.hist = s.busCfg ∧ busOrdered s.hist = true

/-- Memory is in its canonical form. -/
def MemInv (s : State) : Prop := Memory.wf s.mem = true

/-- The invariant of the machine: R41, R59, R67 and the form of memory. -/
structure Inv (s : State) : Prop where
  mode    : ModeInv s
  stall   : StallInv s
  windows : WindowInv s
  guards  : StreamGuardInv s
  hist    : HistInv s
  mem     : MemInv s

/-! ### Runs -/

/-- A quiescent state (R253). -/
def State.quiescent (s : State) : Bool :=
  decide (s.mode = .command ∧ s.inWin = [] ∧ s.outWin = [] ∧ s.rstLatch = false ∧ s.hostIn = [])

/-- The state Reset leaves (R210): `s` with its registers cleared, the windows empty, the decoder at CODEC_RESET
and two events in HIST. MEM, the latches and the model's own fields are kept. -/
def resetState (s : State) : State :=
  { s with
    mode   := .command
    flags  := ⟨false, false, false⟩
    curH   := 0
    curL   := 0
    remain := 0
    stall  := 0
    lines  := ⟨false, false, false⟩
    busCfg := .idle
    inWin  := []
    outWin := []
    dec    := s.cfg.codecReset
    hist   := .lines ⟨false, false, false⟩ :: .cfg .idle :: s.hist }

/-- No Reset is taken in steps 1 and 2 of an iteration that starts in `s` (R205, R206). -/
def NoReset (s : State) : Prop :=
  s.rstLatch = false ∧ (s.tickLatch = true → (nextStall s).toNat ≤ stallLimit)

/-- The state in which step 3 begins, where no Reset is taken: a pending tick has been counted (R206). -/
def ticked (s : State) : State :=
  if s.tickLatch then { s with tickLatch := false, stall := nextStall s } else s

/-- `k` steps, stopping at the first fault or refusal. -/
def runSteps : Nat → State → Result
  | 0, s     => .next s
  | k + 1, s =>
    match step s with
    | .next t    => runSteps k t
    | .fault e   => .fault e
    | .refused e => .refused e

/-- `n` mode steps with OUT drained whole after each: the bytes that went out, and the state. -/
def drainedSteps : Nat → State → List Byte × State
  | 0, s     => ([], s)
  | n + 1, s =>
    match modeStep s with
    | .next t =>
      let r := drainedSteps n { t with outWin := [] }
      (t.outWin ++ r.1, r.2)
    | .fault _   => ([], s)
    | .refused _ => ([], s)

end Sys2Proof.Machine
end

