-- ==== Sys2Proof/Certificates/Slice0/Obligations.lean ====
section
/-! DEFINITION. The statements for the provers. A docstring names the rules a statement formalises, and the
decisions of spec/92_eei_decisions.md (the spec's own choices) or log entries (the model's) it rests on. -/

open Sys2Proof Sys2Proof.Machine

/-! ### The commands: what each answers -/

/-- R130: ping echoes exactly its payload, whatever FLAGS holds; a payload of 9 bytes or more is a protocol error. -/
def Obligations.PingEchoesItsPayload : Prop :=
  ∀ (s : State) (p : List Byte),
    (p.length ≤ 8 → CanRespond s 0xFF p →
      exec (.ping p) s = .next (answered s 0xFF p) ∧ dispatch ⟨0x01, p⟩ s = .next (answered s 0xFF p)) ∧
    (9 ≤ p.length → CanRespond s 0xFE (protocolText 0x01) →
      dispatch ⟨0x01, p⟩ s = .next (answered s 0xFE (protocolText 0x01)))

/-- R131. The layout of the two bytes is the spec's decision D8. -/
def Obligations.VersionReportsMajorThenMinor : Prop :=
  ∀ s : State, CanRespond s 0xFF [0x02, 0x01] → exec .version s = .next (answered s 0xFF [0x02, 0x01])

/-- R132. One byte 0x00 or 0x01 per flag is the spec's decision D9. -/
def Obligations.StatusReportsTheFlags : Prop :=
  ∀ (s : State) (q : List Byte),
    q = [if s.flags.u then 0x01 else 0x00, if s.flags.p then 0x01 else 0x00, if s.flags.r then 0x01 else 0x00] →
    CanRespond s 0xFF q → exec .status s = .next (answered s 0xFF q)

/-- R140 with R76, under both values of BOOL_DECODE. The empty Ok payload is the spec's decision D7. -/
def Obligations.SetUnlockedWritesU : Prop :=
  ∀ (s : State) (b : Byte) (v : Bool),
    (s.cfg.boolDecode = .nonZero → (v = true ↔ b ≠ 0x00)) → (s.cfg.boolDecode = .bit0 → v = b.getLsbD 0) →
    CanRespond s 0xFF [] →
    exec (.setUnlocked b) s =
      .next { s with flags := { s.flags with u := v }, outWin := codecEncode s.cfg.codec 0xFF [] }

/-- R141 with R76: P takes the flag, OE and GB take the levels of PT_LINES for it, RST is kept, and HIST gains one
event, also where nothing changes. The Ok payload is decision D7; PT_LINES is a parameter (D15). -/
def Obligations.SetPassthroughWritesPAndLines : Prop :=
  ∀ (s : State) (b : Byte) (v : Bool) (l : PtLevels),
    (s.cfg.boolDecode = .nonZero → (v = true ↔ b ≠ 0x00)) → (s.cfg.boolDecode = .bit0 → v = b.getLsbD 0) →
    (v = true → l = s.cfg.ptLines.enter) → (v = false → l = s.cfg.ptLines.leave) →
    CanRespond s 0xFF [] →
    exec (.setPassthrough b) s =
      .next { s with
        flags  := { s.flags with p := v }
        lines  := ⟨l.oe, l.gb, s.lines.rst⟩
        hist   := .lines ⟨l.oe, l.gb, s.lines.rst⟩ :: s.hist
        outWin := codecEncode s.cfg.codec 0xFF [] }

/-- R142 with R76: R and the line RST take the flag, OE and GB are kept. The Ok payload is decision D7. -/
def Obligations.SetResetWritesRAndLine : Prop :=
  ∀ (s : State) (b : Byte) (v : Bool),
    (s.cfg.boolDecode = .nonZero → (v = true ↔ b ≠ 0x00)) → (s.cfg.boolDecode = .bit0 → v = b.getLsbD 0) →
    CanRespond s 0xFF [] →
    exec (.setReset b) s =
      .next { s with
        flags  := { s.flags with r := v }
        lines  := ⟨s.lines.oe, s.lines.gb, v⟩
        hist   := .lines ⟨s.lines.oe, s.lines.gb, v⟩ :: s.hist
        outWin := codecEncode s.cfg.codec 0xFF [] }

/-- R150, for the blocks of the memory, and for every block under `Alias` (R55): 256 reads in order between
Cfg(Read) and Cfg(Idle), which HIST records; MEM is unchanged. The bus events are decision D14. -/
def Obligations.ReadBlockReturnsTheBlock : Prop :=
  ∀ (s : State) (h : Byte) (d : List Byte),
    s.flags.u = true → s.flags.p = false → (h.toNat < 128 ∨ s.cfg.extHigh = .mirror) →
    d = (List.range 256).map (fun o => s.mem.read (256 * (h.toNat % 128) + o)) →
    CanRespond s 0xFF d →
    exec (.readBlock h) s =
      .next { s with
        busCfg := .idle
        hist   := .cfg .idle :: (readEvents (blockAddrs h) d ++ .cfg .read :: s.hist)
        outWin := codecEncode s.cfg.codec 0xFF d }

/-- R150 with the default of R55 (decision D13): above the memory, read_block answers the next 256 free bytes of
`Config.freeByte` (log entry 7), byte `o` for offset `o`, with no error and MEM unchanged. -/
def Obligations.ReadBlockAboveTheSpaceDraws : Prop :=
  ∀ (s : State) (h : Byte) (d : List Byte),
    s.flags.u = true → s.flags.p = false → 128 ≤ h.toNat → s.cfg.extHigh = .draw →
    d = (List.range 256).map (fun o => Config.freeByte (s.drawn + o)) →
    CanRespond s 0xFF d →
    exec (.readBlock h) s =
      .next { s with
        busCfg := .idle
        hist   := .cfg .idle :: (readEvents (blockAddrs h) d ++ .cfg .read :: s.hist)
        outWin := codecEncode s.cfg.codec 0xFF d
        drawn  := s.drawn + 256 }

/-- R151, for the blocks of the memory, and for every block under `Alias` (R55): data byte `o` at offset `o`, every
other byte as before, 256 writes in order between Cfg(Write) and Cfg(Idle). The Ok payload is decision D7, the bus
events D14. -/
def Obligations.WriteBlockStoresTheBlock : Prop :=
  ∀ (s : State) (h : Byte) (data : List Byte),
    s.flags.u = true → s.flags.p = false → (h.toNat < 128 ∨ s.cfg.extHigh = .mirror) → data.length = 256 →
    CanRespond s 0xFF [] →
    ∃ t : State,
      exec (.writeBlock h data) s = .next t ∧
      (∀ o, ∀ ho : o < data.length, t.mem.read (256 * (h.toNat % 128) + o) = data[o]) ∧
      (∀ a, (∀ o < 256, a ≠ 256 * (h.toNat % 128) + o) → t.mem.read a = s.mem.read a) ∧
      t = { s with
        mem    := t.mem
        busCfg := .idle
        hist   := .cfg .idle :: (writeEvents ((blockAddrs h).zip data) ++ .cfg .write :: s.hist)
        outWin := codecEncode s.cfg.codec 0xFF [] }

/-- R151 with the default of R55 (decision D13): above the memory, the byte under offset `o` of the block becomes the
free byte `o` of the next 256 of `Config.freeByte` (log entry 7), not the byte driven; every other byte is as
before. -/
def Obligations.WriteBlockAboveTheSpaceDraws : Prop :=
  ∀ (s : State) (h : Byte) (data : List Byte),
    s.flags.u = true → s.flags.p = false → 128 ≤ h.toNat → s.cfg.extHigh = .draw → data.length = 256 →
    CanRespond s 0xFF [] →
    ∃ t : State,
      exec (.writeBlock h data) s = .next t ∧
      (∀ o < 256, t.mem.read (256 * (h.toNat % 128) + o) = Config.freeByte (s.drawn + o)) ∧
      (∀ a, (∀ o < 256, a ≠ 256 * (h.toNat % 128) + o) → t.mem.read a = s.mem.read a) ∧
      t = { s with
        mem    := t.mem
        busCfg := .idle
        hist   := .cfg .idle :: (writeEvents ((blockAddrs h).zip data) ++ .cfg .write :: s.hist)
        outWin := codecEncode s.cfg.codec 0xFF []
        drawn  := s.drawn + 256 }

/-- R160. The empty Ok response is decision D7. -/
def Obligations.RxStreamEntersReceiveStream : Prop :=
  ∀ s : State, s.flags.u = true → s.flags.p = false → CanRespond s 0xFF [] →
    exec .rxStream s =
      .next { s with
        curH   := 0x00
        curL   := 0x00
        remain := 32768
        busCfg := .write
        mode   := .receiveStream
        hist   := .cfg .write :: s.hist
        outWin := codecEncode s.cfg.codec 0xFF [] }

/-- R161. The empty Ok response is decision D7. -/
def Obligations.TxStreamEntersTransmitStream : Prop :=
  ∀ s : State, s.flags.u = true → s.flags.p = false → CanRespond s 0xFF [] →
    exec .txStream s =
      .next { s with
        curH   := 0x00
        curL   := 0x00
        remain := 32768
        busCfg := .read
        mode   := .transmitStream
        hist   := .cfg .read :: s.hist
        outWin := codecEncode s.cfg.codec 0xFF [] }

/-! ### Errors -/

/-- R111 with R103 to R105: with U = 0, whatever P holds, each guarded command answers its own LOCK_MSG and does
nothing else. That the lock check comes before the passthrough check is decision D12, that nothing else happens D31. -/
def Obligations.GuardedCommandsFailLocked : Prop :=
  ∀ (s : State) (i : Instr) (g : Guarded),
    guardOf i = some g → i.wellFormed = true → s.flags.u = false →
    CanRespond s 0xFE (policyText s.cfg.lockMsg g) →
    exec i s = .next (answered s 0xFE (policyText s.cfg.lockMsg g))

/-- R112 with R103 to R105: with U = 1 and P = 1 each guarded command answers its own PT_MSG and does nothing else.
That nothing else happens is decision D31. -/
def Obligations.GuardedCommandsFailInPassthrough : Prop :=
  ∀ (s : State) (i : Instr) (g : Guarded),
    guardOf i = some g → i.wellFormed = true → s.flags.u = true → s.flags.p = true →
    CanRespond s 0xFE (policyText s.cfg.ptMsg g) →
    exec i s = .next (answered s 0xFE (policyText s.cfg.ptMsg g))

/-- R78 and R110: an opcode outside 0x01 to 0x0A, and a length that `admits` rejects, get the protocol error that
names the opcode, whatever FLAGS holds, and have no other effect. -/
def Obligations.UnadmittedRequestsGetTheProtocolError : Prop :=
  ∀ (s : State) (op : Byte) (p : List Byte),
    (op.toNat = 0 ∨ 0x0B ≤ op.toNat ∨ admits op p.length = false) →
    CanRespond s 0xFE (protocolText op) →
    dispatch ⟨op, p⟩ s = .next (answered s 0xFE (protocolText op))

/-- R81: the 23 bytes of the text, then the two upper-case digits; the form of the bytes is decision D25. -/
def Obligations.ProtocolErrorMessageBytes : Prop :=
  ∀ op : Byte,
    protocolText op =
      [0x55, 0x6E, 0x73, 0x75, 0x70, 0x70, 0x6F, 0x72, 0x74, 0x65, 0x64, 0x20, 0x63, 0x6F, 0x6D, 0x6D, 0x61, 0x6E,
       0x64, 0x3A, 0x20, 0x30, 0x78] ++
      [op.toNat / 16, op.toNat % 16].map
        (fun d => if d ≤ 9 then BitVec.ofNat 8 (0x30 + d) else BitVec.ofNat 8 (0x41 + d - 10))

/-- R105 (decision D31): a request that raises an error changes OUT and nothing else; no byte of MEM, no register,
no bus event. -/
def Obligations.FailedRequestsHaveNoEffect : Prop :=
  ∀ (s t : State) (r : Request),
    ((∃ e, decodeRequest r = .error e) ∨
      (∃ i g, decodeRequest r = .ok i ∧ guardOf i = some g ∧ (s.flags.u = false ∨ s.flags.p = true))) →
    dispatch r s = .next t → t = { s with outWin := t.outWin }

/-! ### Encoding -/

/-- R77: the admitted pairs of opcode and length, and that exactly the admitted requests are commands. -/
def Obligations.AdmittedRequestsAreTheCommands : Prop :=
  ∀ (op : Byte) (p : List Byte),
    (admits op p.length = true ↔
      (op = 0x01 ∧ p.length ≤ 8) ∨ ((op = 0x02 ∨ op = 0x03 ∨ op = 0x09 ∨ op = 0x0A) ∧ p.length = 0) ∨
        ((op = 0x04 ∨ op = 0x05 ∨ op = 0x06 ∨ op = 0x07) ∧ p.length = 1) ∨ (op = 0x08 ∧ p.length = 257)) ∧
    ((∃ i, decodeRequest ⟨op, p⟩ = .ok i) ↔ admits op p.length = true)

/-- R71, R74, R75: decoding the request bytes of a well-formed command gives the command back, with every operand. -/
def Obligations.DecodeInvertsEncode : Prop :=
  ∀ i : Instr, i.wellFormed = true → decode (encode i) = .ok i

/-- R71, R74, R75: bytes that decode are the request bytes of the command they decode to, and it is well-formed. -/
def Obligations.DecodedRequestsEncodeBack : Prop :=
  ∀ (bs : List Byte) (i : Instr), decode bs = .ok i → i.wellFormed = true ∧ encode i = bs

/-- R74: the opcode map, on request bytes written out from it. -/
def Obligations.RequestBytesOfTheMapDecode : Prop :=
  decode [0x01, 0xDE, 0xAD] = .ok (.ping [0xDE, 0xAD]) ∧ decode [0x02] = .ok .version ∧ decode [0x03] = .ok .status ∧
  decode [0x04, 0x01] = .ok (.setUnlocked 0x01) ∧ decode [0x05, 0x01] = .ok (.setPassthrough 0x01) ∧
  decode [0x06, 0x00] = .ok (.setReset 0x00) ∧ decode [0x07, 0x7F] = .ok (.readBlock 0x7F) ∧
  (∀ h data, data.length = 256 → decode (0x08 :: h :: data) = .ok (.writeBlock h data)) ∧
  decode [0x09] = .ok .rxStream ∧ decode [0x0A] = .ok .txStream ∧ decode [0x0B] = .error (.unrecognized 0x0B)

/-- The reference framing (DESIGN CHOICE, log entry 2) delivers the request of its frame at the frame's last byte,
and leaves what follows. -/
def Obligations.ReferenceFrameDeliversItsRequest : Prop :=
  ∀ (op : Byte) (p rest : List Byte), p.length < 65536 →
    feed .reference .idle (referenceFrame op p ++ rest) = ⟨.idle, rest, some ⟨op, p⟩⟩

/-! ### The step -/

/-- R100 to R103: where no Reset is taken, OUT is empty in Command mode and the codec completes a request that is a
command, the step is that command's meaning, on the state after the watchdog's count and the feeding, followed by
the environment's part. The order of the iteration is decision D4, one dispatch per iteration D6. -/
def Obligations.StepRunsTheDecodedInstruction : Prop :=
  ∀ (s s₁ : State) (r : Request) (i : Instr),
    s₁ = ticked (startIteration s) → NoReset (startIteration s) → s₁.mode = .command → s₁.outWin = [] →
    (fedFrom s₁).req = some r → decodeRequest r = .ok i →
    step s = onNext (exec i (afterFeed s₁)) (environment (nextDraw s))

/-- R100 to R103, R110, the branches of the command step without a command, where no Reset is taken and OUT is empty.
A completed request that is no command is answered in the same step. With no request completed, IN is consumed, DEC
keeps what it was fed, and nothing is dispatched. The order of the iteration is decision D4. -/
def Obligations.StepAnswersUndecodableRequests : Prop :=
  ∀ s s₁ : State,
    s₁ = ticked (startIteration s) → NoReset (startIteration s) → s₁.mode = .command →
    (∀ (r : Request) (e : DecodeError),
      (fedFrom s₁).req = some r → decodeRequest r = .error e → CanRespond s₁ 0xFE (protocolText r.op) →
      step s = .next (environment (nextDraw s) (answered (afterFeed s₁) 0xFE (protocolText r.op)))) ∧
    (s₁.outWin = [] → (fedFrom s₁).req = none →
      step s = .next (environment (nextDraw s)
        { s₁ with dec := (feed s₁.cfg.codec s₁.dec s₁.inWin).dec, inWin := [] }))

/-- R100: an iteration is the sequencer's part on the state after the events, then refill and drain; and where no
Reset is taken, the sequencer's part is the mode step on the state after the count of a pending tick, in every mode.
With no tick pending the mode step runs on the state as it is. The order is decision D4. -/
def Obligations.IterationRunsTheModeStep : Prop :=
  ∀ s : State,
    step s = onNext (seqPart (startIteration s)) (environment (nextDraw s)) ∧
    (NoReset s → seqPart s = modeStep (ticked s)) ∧
    (s.rstLatch = false → s.tickLatch = false → seqPart s = modeStep s)

/-- R107: with OUT non-empty in Command mode no byte is taken from IN and nothing is dispatched. -/
def Obligations.UndrainedResponseHoldsCommandMode : Prop :=
  ∀ s : State, s.mode = .command → s.outWin ≠ [] → modeStep s = .next s

/-- R108: while a stream runs, no request is decoded, so DEC and FLAGS stay, unless a Reset is taken. -/
def Obligations.StreamsDecodeNothing : Prop :=
  ∀ s t : State, s.mode ≠ .command → NoReset s → seqPart s = .next t → t.dec = s.dec ∧ t.flags = s.flags

/-- R102: a frame split over two chunks is completed with the second, because DEC keeps its state, whatever the
codec. -/
def Obligations.FeedingContinuesAcrossChunks : Prop :=
  ∀ (c : Codec) (d : DecState) (xs ys : List Byte),
    (feed c d xs).req = none → feed c d (xs ++ ys) = feed c (feed c d xs).dec ys ∧ (feed c d xs).rest = []

/-! ### Frames -/

/-- R130 to R132: ping, version and status change OUT only. -/
def Obligations.InfoCommandsChangeOnlyOut : Prop :=
  ∀ (s t : State) (i : Instr), ((∃ p, i = .ping p) ∨ i = .version ∨ i = .status) → exec i s = .next t →
    t = { s with outWin := t.outWin } ∧ ∀ a, t.mem.read a = s.mem.read a

/-- R140 to R142: each flag command changes its own flag, the lines its rule names with one event, and OUT. -/
def Obligations.FlagCommandsChangeOnlyTheirFlagAndLines : Prop :=
  ∀ (s t : State) (b : Byte),
    (exec (.setUnlocked b) s = .next t →
      t = { s with flags := { s.flags with u := t.flags.u }, outWin := t.outWin } ∧
        ∀ a, t.mem.read a = s.mem.read a) ∧
    (exec (.setPassthrough b) s = .next t →
      t = { s with flags := { s.flags with p := t.flags.p }, lines := { s.lines with oe := t.lines.oe, gb := t.lines.gb },
                   hist := .lines t.lines :: s.hist, outWin := t.outWin } ∧ ∀ a, t.mem.read a = s.mem.read a) ∧
    (exec (.setReset b) s = .next t →
      t = { s with flags := { s.flags with r := t.flags.r }, lines := { s.lines with rst := t.lines.rst },
                   hist := .lines t.lines :: s.hist, outWin := t.outWin } ∧ ∀ a, t.mem.read a = s.mem.read a)

/-- R150: read_block changes BUS_CFG, HIST, OUT and the count of free bytes; every byte of MEM is as before. -/
def Obligations.ReadBlockLeavesTheRest : Prop :=
  ∀ (s t : State) (h : Byte), exec (.readBlock h) s = .next t →
    t = { s with busCfg := t.busCfg, hist := t.hist, outWin := t.outWin, drawn := t.drawn } ∧
      ∀ a, t.mem.read a = s.mem.read a

/-- R151: write_block changes BUS_CFG, HIST, OUT, the count of free bytes, and in MEM the bytes under the addresses
of its block. -/
def Obligations.WriteBlockLeavesTheRest : Prop :=
  ∀ (s t : State) (h : Byte) (data : List Byte), exec (.writeBlock h data) s = .next t →
    t = { s with mem := t.mem, busCfg := t.busCfg, hist := t.hist, outWin := t.outWin, drawn := t.drawn } ∧
      ∀ a, (∀ x ∈ blockAddrs h, lowAddr x ≠ a) → t.mem.read a = s.mem.read a

/-- R160, R161: the stream commands change MODE, CUR, REMAIN, BUS_CFG, HIST and OUT. -/
def Obligations.StreamCommandsLeaveTheRest : Prop :=
  ∀ (s t : State) (i : Instr), (i = .rxStream ∨ i = .txStream) → exec i s = .next t →
    t = { s with mode := t.mode, curH := t.curH, curL := t.curL, remain := t.remain, busCfg := t.busCfg,
                 hist := t.hist, outWin := t.outWin } ∧
      ∀ a, t.mem.read a = s.mem.read a

/-! ### Streams -/

/-- R51 and the loops of R150, R151: the addresses of a block, in order. -/
def Obligations.BlockAddressesAscend : Prop :=
  ∀ h o : Byte,
    (busAddr h o).toNat = 256 * h.toNat + o.toNat ∧
      (blockAddrs h).map BitVec.toNat = (List.range 256).map (fun k => 256 * h.toNat + k)

/-- R166: `Advance()`, and that it is one more modulo 65536. -/
def Obligations.AdvanceStepsTheCursor : Prop :=
  ∀ s : State,
    cursor (advance s) = cursor s + 1 ∧
    (s.curL = 0xFF → advance s = { s with curL := 0x00, curH := s.curH + 1 }) ∧
    (s.curL ≠ 0xFF → advance s = { s with curL := s.curL + 1 })

/-- R162: with fewer bytes in IN than REMAIN, the receive step stores them all at the cursor, in order, and nothing
else; with IN empty it does nothing. -/
def Obligations.ReceiveStepStoresEveryByte : Prop :=
  ∀ s : State, s.mode = .receiveStream → atStreamPosition s → s.inWin.length < s.remain.toNat →
    ∃ t : State,
      modeStep s = .next t ∧
      (∀ k, ∀ hk : k < s.inWin.length, t.mem.read ((cursor s).toNat + k) = s.inWin[k]) ∧
      (∀ a, (a < (cursor s).toNat ∨ (cursor s).toNat + s.inWin.length ≤ a) → t.mem.read a = s.mem.read a) ∧
      (cursor t).toNat = (cursor s).toNat + s.inWin.length ∧
      t.remain.toNat = s.remain.toNat - s.inWin.length ∧
      t = { s with curH := t.curH, curL := t.curL, remain := t.remain, mem := t.mem, inWin := [],
                   hist := writeEvents ((cursorAddrs s s.inWin.length).zip s.inWin) ++ s.hist }

/-- R162, R163: with at least REMAIN bytes in IN, the receive step stores REMAIN of them, leaves the rest in IN and
completes: the bus is Idle, MODE is Command, CUR is 0x8000 and REMAIN is 0. Completion in the same step is decision
D16. -/
def Obligations.ReceiveStepCompletes : Prop :=
  ∀ s : State, s.mode = .receiveStream → atStreamPosition s → 1 ≤ s.remain.toNat →
    s.remain.toNat ≤ s.inWin.length →
    ∃ t : State,
      modeStep s = .next t ∧
      (∀ k, ∀ hk : k < s.inWin.length, k < s.remain.toNat → t.mem.read ((cursor s).toNat + k) = s.inWin[k]) ∧
      (∀ a, (a < (cursor s).toNat ∨ 32768 ≤ a) → t.mem.read a = s.mem.read a) ∧
      t = { s with
        mode := .command, busCfg := .idle, curH := 0x80, curL := 0x00, remain := 0, mem := t.mem
        inWin := s.inWin.drop s.remain.toNat
        hist := .cfg .idle :: (writeEvents ((cursorAddrs s s.remain.toNat).zip s.inWin) ++ s.hist) }

/-- R164: with bytes to go and OUT empty, the transmit step installs one raw chunk of `min(REMAIN, CHUNK_MAX)`
bytes of MEM from the cursor on, reading each once in order; with OUT non-empty it does nothing. One chunk per step
is decision D17, the premise on OUT_CAP D30. -/
def Obligations.TransmitStepFillsOneChunk : Prop :=
  ∀ (s : State) (n : Nat),
    s.mode = .transmitStream → s.remain ≠ 0 →
    (s.outWin ≠ [] → modeStep s = .next s) ∧
    (s.outWin = [] → atStreamPosition s → n = min s.remain.toNat s.cfg.chunkMax → n ≤ s.cfg.outCap →
      ∃ t : State,
        modeStep s = .next t ∧
        t.outWin = (List.range n).map (fun k => s.mem.read ((cursor s).toNat + k)) ∧
        (cursor t).toNat = (cursor s).toNat + n ∧
        t.remain.toNat = s.remain.toNat - n ∧
        t = { s with curH := t.curH, curL := t.curL, remain := t.remain, outWin := t.outWin,
                     hist := readEvents (cursorAddrs s n) t.outWin ++ s.hist })

/-- R165: a transmit step that finds REMAIN = 0 completes, and keeps the last chunk in OUT. -/
def Obligations.TransmitStepCompletes : Prop :=
  ∀ s : State, s.mode = .transmitStream → s.remain = 0 →
    modeStep s = .next { s with mode := .command, busCfg := .idle, hist := .cfg .idle :: s.hist }

/-- R162, R163, R168 over a whole stream: however the 32768 bytes after rx_stream are cut into chunks, the receive
steps store byte `k` at address `k` and end in Command mode. Completion in the last byte's step is decision D16. -/
def Obligations.ReceiveStreamStoresTheWholeImage : Prop :=
  ∀ (s t : State) (chunks : List (List Byte)),
    s.mode = .receiveStream → s.remain = 32768 → cursor s = 0 → chunks.flatten.length = 32768 →
    t = chunks.foldl (fun x c => receiveStep { x with inWin := c }) s →
    t.mode = .command ∧ t.busCfg = .idle ∧ cursor t = 0x8000 ∧ t.remain = 0 ∧
      ∀ k, ∀ hk : k < chunks.flatten.length, t.mem.read k = chunks.flatten[k]

/-- R73, R164, R167 over a whole stream: the transmit steps after tx_stream, each followed by the drain of its chunk,
send the 32768 bytes of MEM in address order, in `ceil(32768 / CHUNK_MAX)` chunks. One chunk per step is decision
D17. -/
def Obligations.TransmitStreamSendsTheWholeImage : Prop :=
  ∀ (s : State) (n : Nat),
    s.mode = .transmitStream → s.remain = 32768 → cursor s = 0 → s.outWin = [] →
    1 ≤ s.cfg.chunkMax → s.cfg.chunkMax ≤ s.cfg.outCap →
    (n - 1) * s.cfg.chunkMax < 32768 → 32768 ≤ n * s.cfg.chunkMax →
    (drainedSteps n s).1 = (List.range 32768).map (fun k => s.mem.read k) ∧
      (drainedSteps n s).2.remain = 0 ∧ (drainedSteps n s).2.mode = .transmitStream ∧
      (drainedSteps n s).2.mem = s.mem

/-- R150, R151, R60 (decision D20): a block read after it has been written returns the data, once the response in
between has drained. -/
def Obligations.ReadAfterWriteReturnsTheData : Prop :=
  ∀ (s t : State) (h : Byte) (data : List Byte),
    s.flags.u = true → s.flags.p = false → (h.toNat < 128 ∨ s.cfg.extHigh = .mirror) → data.length = 256 →
    CanRespond s 0xFF data → exec (.writeBlock h data) s = .next t →
    ∃ x : State, exec (.readBlock h) { t with outWin := [] } = .next x ∧
      x.outWin = codecEncode s.cfg.codec 0xFF data

/-! ### Reset and the watchdog -/

/-- R205, R210, R213: a pending bus reset is taken first, whatever MODE, STALL and TICK_LATCH hold; TICK_LATCH and
MEM are kept. The order of the two events is decision D14, CUR and REMAIN D23, TICK_LATCH D21. -/
def Obligations.BusResetIsTakenFirst : Prop :=
  ∀ s : State, (startIteration s).rstLatch = true →
    step s = .next (environment (nextDraw s) (resetState { startIteration s with rstLatch := false }))

/-- R206, R207: a pending tick is cleared and counted on the state before the mode step. Stalled: OUT non-empty in
Command mode and TransmitStream, IN empty in ReceiveStream. The 1001st takes Reset and skips the mode step. The
stall predicate is decision D5, the place of the check D4, the skip D22. -/
def Obligations.WatchdogCountsStalledTicks : Prop :=
  ∀ (s : State) (st : Bool),
    s.rstLatch = false → s.tickLatch = true → s.stall.toNat ≤ 1000 →
    (st = true ↔ ((s.mode = .command ∨ s.mode = .transmitStream) ∧ s.outWin ≠ []) ∨
      (s.mode = .receiveStream ∧ s.inWin = [])) →
    (st = false → seqPart s = modeStep { s with tickLatch := false, stall := 0 }) ∧
    (st = true → s.stall.toNat < 1000 → seqPart s = modeStep { s with tickLatch := false, stall := s.stall + 1 }) ∧
    (st = true → s.stall.toNat = 1000 → seqPart s = .next (resetState { s with tickLatch := false }))

/-- R245, R206: with a timer tick before every iteration and no transport step, a stalled machine with STALL = 0
counts to 1000 with FLAGS kept, and the 1001st tick resets it: OUT and FLAGS are lost, MEM is kept. -/
def Obligations.StalledTicksEndInReset : Prop :=
  ∀ (s : State) (rest : List Draw),
    stalled s = true → ModeInv s → s.rstLatch = false → s.stall = 0 →
    s.draws = List.replicate 1001 ⟨[.tick], false, false⟩ ++ rest →
    (∃ t, runSteps 1000 s = .next t ∧ t.stall.toNat = 1000 ∧ t.flags = s.flags ∧ t.outWin = s.outWin) ∧
    (∃ t, runSteps 1001 s = .next t ∧ t.mode = .command ∧ t.flags = ⟨false, false, false⟩ ∧ t.stall = 0 ∧
      t.outWin = [] ∧ t.inWin = [] ∧ t.remain = 0 ∧ t.busCfg = .idle ∧ t.lines = ⟨false, false, false⟩ ∧
      t.dec = s.cfg.codecReset ∧ t.mem = s.mem ∧ t.draws = rest)

/-! ### The environment -/

/-- R40: an interrupt event sets its latch and nothing else, and no event clears a latch. -/
def Obligations.EventsOnlySetLatches : Prop :=
  ∀ (s : State) (es : List EnvEvent),
    (applyEvents es s).rstLatch = (s.rstLatch || decide (EnvEvent.busReset ∈ es)) ∧
    (applyEvents es s).tickLatch = (s.tickLatch || decide (EnvEvent.tick ∈ es)) ∧
    ((∀ e ∈ es, e = .busReset ∨ e = .tick) →
      applyEvents es s = { s with rstLatch := (applyEvents es s).rstLatch, tickLatch := (applyEvents es s).tickLatch })

/-- R204: "device configured", "suspended" and "resumed" set no latch and change no state. -/
def Obligations.OtherSignalsChangeNothing : Prop :=
  ∀ s : State, applyEvent .configured s = s ∧ applyEvent .suspended s = s ∧ applyEvent .resumed s = s

/-- R58 (decision D20): the GB changes the bytes it writes while P = 1, and no byte while P = 0. -/
def Obligations.GbWritesOnlyInPassthrough : Prop :=
  ∀ (s : State) (es : List EnvEvent) (a : Nat),
    (s.flags.p = false → (applyEvents es s).mem = s.mem) ∧
    ((∀ x v, EnvEvent.gbWrite x v ∈ es → x.toNat ≠ a) → (applyEvents es s).mem.read a = s.mem.read a) ∧
    (∀ x v, s.flags.p = true → (applyEvents (es ++ [.gbWrite x v]) s).mem.read x.toNat = v)

/-- R38: the environment's agents write RST_LATCH, TICK_LATCH, IN, OUT, MEM and the model's own host fields, and no
register of the sequencer. -/
def Obligations.EnvironmentWritesNoRegister : Prop :=
  ∀ (s t : State) (es : List EnvEvent) (d : Draw), t = environment d (applyEvents es s) →
    t = { s with rstLatch := t.rstLatch, tickLatch := t.tickLatch, inWin := t.inWin, outWin := t.outWin, mem := t.mem,
                 hostIn := t.hostIn, hostOut := t.hostOut }

/-- R39: refill takes the host's next chunk only into an empty IN, only if it is available and has 1 to CHUNK_MAX
bytes (U17). -/
def Obligations.RefillTakesOneChunk : Prop :=
  ∀ (s : State) (avail : Bool),
    (∀ c cs, s.inWin = [] → s.hostIn = c :: cs → avail = true → 1 ≤ c.length → c.length ≤ s.cfg.chunkMax →
      refillInbound avail s = { s with inWin := c, hostIn := cs }) ∧
    ((s.inWin ≠ [] ∨ s.hostIn = [] ∨ avail = false ∨
        ∃ c cs, s.hostIn = c :: cs ∧ (c = [] ∨ s.cfg.chunkMax < c.length)) →
      refillInbound avail s = s)

/-- R39: drain hands over the first `min(|OUT|, CHUNK_MAX)` bytes if the transport is ready. The length of the slice
is decision D37. -/
def Obligations.DrainSendsOneSlice : Prop :=
  ∀ (s : State) (k : Nat),
    (s.outWin ≠ [] → k = min s.outWin.length s.cfg.chunkMax →
      drainOutbound true s = { s with hostOut := s.outWin.take k :: s.hostOut, outWin := s.outWin.drop k }) ∧
    (s.outWin = [] → drainOutbound true s = s) ∧ drainOutbound false s = s

/-! ### The machine as a whole -/

/-- R240, R242, for all parameters and all memory contents: the state at power-up. That boot is the Reset state is
decision D22, CUR and REMAIN are D23. `State.reset` is one of these states (log entries 1 to 6 and 8). -/
def Obligations.BootState : Prop :=
  (∀ (c : Config) (m : Memory),
    (State.boot c m).mode = .command ∧ (State.boot c m).flags = ⟨false, false, false⟩ ∧
    (State.boot c m).curH = 0 ∧ (State.boot c m).curL = 0 ∧ (State.boot c m).remain = 0 ∧
    (State.boot c m).stall = 0 ∧ (State.boot c m).lines = ⟨false, false, false⟩ ∧ (State.boot c m).busCfg = .idle ∧
    (State.boot c m).rstLatch = false ∧ (State.boot c m).tickLatch = false ∧ (State.boot c m).inWin = [] ∧
    (State.boot c m).outWin = [] ∧ (State.boot c m).dec = dec0 c.codec ∧ (State.boot c m).hist = [] ∧
    (State.boot c m).mem = m) ∧
  ∃ c m, State.reset = State.boot c m

/-- R41, R59, R67 at power-up, for all parameters and all memory contents. -/
def Obligations.BootMeetsTheInvariant : Prop :=
  ∀ (c : Config) (m : Memory), Memory.wf m = true → Inv (State.boot c m)

/-- R41, R59, R67: every step keeps the invariant: MODE, BUS_CFG, REMAIN and the cursor agree, STALL is at most
1000, the windows are within their sizes, U = 1 and P = 0 during a stream, every access in HIST comes under its bus
configuration, and memory is in canonical form. -/
def Obligations.StepKeepsTheInvariant : Prop :=
  ∀ s t : State, Inv s → step s = .next t → Inv t

/-- R202: the machine has no fatal state and no halt: with OUT_CAP as R114 and R164 demand, every step of every
state answers a next state. `ConfigFits` asks a little more than R114: payloads up to 256 bytes fit under every
status. -/
def Obligations.EveryStepAnswersANextState : Prop :=
  ∀ s : State, ConfigFits s.cfg → ∃ t, step s = .next t

/-- R7 (log entries 1 and 9): a step writes no parameter, uses up one draw, only takes from the host's queue and
only adds to what the host has. -/
def Obligations.StepKeepsTheParameters : Prop :=
  ∀ s t : State, step s = .next t →
    t.cfg = s.cfg ∧ t.draws = s.draws.tail ∧ (t.hostIn = s.hostIn ∨ t.hostIn = s.hostIn.tail) ∧
      (t.hostOut = s.hostOut ∨ t.hostOut = t.hostOut.headD [] :: s.hostOut)

/-- R104, R216: in Command mode, locked or in passthrough, no step reads or writes memory over the bus, no step
changes MEM (but for the GB, before the iteration), and no step enters a stream. -/
def Obligations.RefusedModesReachNoMemory : Prop :=
  ∀ s t : State,
    (startIteration s).mode = .command → accessMode (startIteration s).flags ≠ .open → step s = .next t →
    t.mem = (startIteration s).mem ∧ t.mode = .command ∧
      ∃ es : List BusEvent, t.hist = es ++ s.hist ∧ ∀ e ∈ es, e.isAccess = false

/-- R23: only the three flag commands and Reset change FLAGS. -/
def Obligations.OnlyFlagCommandsChangeFlags : Prop :=
  ∀ s t : State, NoReset (startIteration s) → step s = .next t → t.flags ≠ s.flags →
    ∃ r i, (startIteration s).mode = .command ∧ (fedFrom (startIteration s)).req = some r ∧
      decodeRequest r = .ok i ∧ isFlagCommand i = true

/-- R35: HIST is only appended to. -/
def Obligations.HistoryOnlyGrows : Prop :=
  ∀ s t : State, step s = .next t → ∃ es, t.hist = es ++ s.hist

/-- R253 (decision D36): from a quiescent state with only timer ticks before the iteration, a step changes nothing
but the tick's own state, and STALL is 0 after a tick. -/
def Obligations.QuiescentStateStays : Prop :=
  ∀ s : State, s.quiescent = true → (∀ e ∈ (nextDraw s).events, e = .tick) →
    ∃ t, step s = .next t ∧
      t = { s with draws := s.draws.tail, tickLatch := false, stall := t.stall } ∧
      (((nextDraw s).events ≠ [] ∨ s.tickLatch = true) → t.stall = 0) ∧
      ((nextDraw s).events = [] → s.tickLatch = false → t.stall = s.stall)
end

