-- ==== Sys2Proof/Laws/Memory.lean ====
section
/-! SUPPORT. The laws of memory: a write is read back, it leaves every other address alone, and it keeps the
canonical form. -/

namespace Sys2Proof.Machine

@[simp] theorem Memory.read_nil (a : Nat) : Memory.read [] a = unlistedByte := rfl

theorem Memory.read_cons (b : Nat) (w : Byte) (m : Memory) (a : Nat) :
    Memory.read ((b, w) :: m) a = if a = b then w else Memory.read m a := rfl

theorem Memory.read_erase_same (m : Memory) (a : Nat) : (m.erase a).read a = unlistedByte := by
  induction m with
  | nil => rfl
  | cons c m ih =>
    obtain ⟨b, w⟩ := c
    by_cases h : a = b
    · simpa [Memory.erase, h] using h ▸ ih
    · simp [Memory.erase, h, Memory.read_cons, ih]

theorem Memory.read_erase_other (m : Memory) {a b : Nat} (h : b ≠ a) : (m.erase a).read b = m.read b := by
  induction m with
  | nil => rfl
  | cons c m ih =>
    obtain ⟨x, w⟩ := c
    by_cases hx : a = x
    · subst hx; simp [Memory.erase, Memory.read_cons, h, ih]
    · simp [Memory.erase, hx, Memory.read_cons, ih]

/-- Inserting at an address the list does not hold. -/
theorem Memory.read_insert (m : Memory) (a : Nat) (v : Byte) (hm : ∀ c ∈ m, c.1 ≠ a) (b : Nat) :
    (m.insert a v).read b = if b = a then v else m.read b := by
  induction m with
  | nil => simp [Memory.insert, Memory.read_cons]
  | cons c m ih =>
    obtain ⟨x, w⟩ := c
    have hx : x ≠ a := hm (x, w) (by simp)
    have ih := ih (fun c hc => hm c (by simp [hc]))
    by_cases hlt : a < x
    · simp [Memory.insert, hlt, Memory.read_cons]
    · simp only [Memory.insert, hlt, if_false, Memory.read_cons, ih]
      by_cases hb : b = x <;> by_cases hb' : b = a <;> simp_all

theorem Memory.not_mem_erase (m : Memory) (a : Nat) : ∀ c ∈ m.erase a, c.1 ≠ a := by
  induction m with
  | nil => simp [Memory.erase]
  | cons c m ih =>
    obtain ⟨x, w⟩ := c
    intro d hd
    by_cases hx : a = x
    · exact ih d (by simpa [Memory.erase, hx] using hd)
    · simp only [Memory.erase, hx, if_false, List.mem_cons] at hd
      exact hd.elim (fun e => by subst e; exact fun h => hx h.symm) (ih d)

/-- A read after a write to any address. -/
theorem Memory.read_write (m : Memory) (a : Nat) (v : Byte) (b : Nat) :
    (m.write a v).read b = if b = a then v else m.read b := by
  unfold Memory.write
  by_cases hv : v = unlistedByte
  · by_cases hb : b = a
    · subst hb; simp [hv, Memory.read_erase_same]
    · simp [hv, hb, Memory.read_erase_other]
  · rw [if_neg hv, Memory.read_insert _ _ _ (Memory.not_mem_erase m a)]
    by_cases hb : b = a
    · simp [hb]
    · simp [hb, Memory.read_erase_other]

theorem Memory.read_write_same (m : Memory) (a : Nat) (v : Byte) : (m.write a v).read a = v := by
  simp [Memory.read_write]

theorem Memory.read_write_other (m : Memory) {a b : Nat} (v : Byte) (h : b ≠ a) :
    (m.write a v).read b = m.read b := by
  simp [Memory.read_write, h]

/-! ### The canonical form -/

theorem Memory.risingFrom_mono {lo lo' : Nat} {m : Memory} (h : lo' ≤ lo) (hm : Memory.risingFrom lo m = true) :
    Memory.risingFrom lo' m = true := by
  cases m with
  | nil => rfl
  | cons c m =>
    simp only [Memory.risingFrom, Bool.and_eq_true, decide_eq_true_eq] at hm ⊢
    exact ⟨by omega, hm.2⟩

theorem Memory.risingFrom_erase {lo : Nat} {m : Memory} (a : Nat) (hm : Memory.risingFrom lo m = true) :
    Memory.risingFrom lo (m.erase a) = true := by
  induction m generalizing lo with
  | nil => rfl
  | cons c m ih =>
    obtain ⟨x, w⟩ := c
    simp only [Memory.risingFrom, Bool.and_eq_true, decide_eq_true_eq] at hm
    by_cases hx : a = x
    · simp only [Memory.erase, hx, if_true]
      exact Memory.risingFrom_mono (by omega) (hx ▸ ih hm.2)
    · simp [Memory.erase, hx, Memory.risingFrom, hm.1, ih hm.2]

theorem Memory.risingFrom_insert {lo : Nat} {m : Memory} {a : Nat} (v : Byte) (hlo : lo ≤ a)
    (ha : ∀ c ∈ m, c.1 ≠ a) (hm : Memory.risingFrom lo m = true) :
    Memory.risingFrom lo (m.insert a v) = true := by
  induction m generalizing lo with
  | nil => simp [Memory.insert, Memory.risingFrom, hlo]
  | cons c m ih =>
    obtain ⟨x, w⟩ := c
    have hx : x ≠ a := ha (x, w) (by simp)
    simp only [Memory.risingFrom, Bool.and_eq_true, decide_eq_true_eq] at hm
    by_cases hlt : a < x
    · simp [Memory.insert, hlt, Memory.risingFrom, hlo, hm.2, Nat.succ_le_of_lt hlt]
    · simp only [Memory.insert, hlt, if_false, Memory.risingFrom, Bool.and_eq_true, decide_eq_true_eq]
      exact ⟨hm.1, ih (by omega) (fun c hc => ha c (by simp [hc])) hm.2⟩

theorem Memory.mem_erase {m : Memory} {a : Nat} {c : Host.Cell} (h : c ∈ m.erase a) : c ∈ m := by
  induction m with
  | nil => exact h
  | cons d m ih =>
    obtain ⟨x, w⟩ := d
    by_cases hx : a = x
    · simp only [Memory.erase, hx, if_true] at h
      exact List.mem_cons_of_mem _ (ih (hx ▸ h))
    · simp only [Memory.erase, hx, if_false, List.mem_cons] at h
      exact h.elim (fun e => by simp [e]) (fun e => List.mem_cons_of_mem _ (ih e))

theorem Memory.mem_insert {m : Memory} {a : Nat} {v : Byte} {c : Host.Cell} (h : c ∈ m.insert a v) :
    c = (a, v) ∨ c ∈ m := by
  induction m with
  | nil => simpa [Memory.insert] using h
  | cons d m ih =>
    obtain ⟨x, w⟩ := d
    by_cases hlt : a < x
    · simpa [Memory.insert, hlt] using h
    · simp only [Memory.insert, hlt, if_false, List.mem_cons] at h
      rcases h with h | h
      · exact .inr (by simp [h])
      · exact (ih h).imp id (List.mem_cons_of_mem _)

theorem Memory.wf_iff (m : Memory) : m.wf = true ↔
    Memory.risingFrom 0 m = true ∧ ∀ c ∈ m, c.1 < spaceSize ∧ c.2 ≠ unlistedByte := by
  simp [Memory.wf, List.all_eq_true]

/-- A write inside the address space keeps the canonical form. -/
theorem Memory.wf_write {m : Memory} {a : Nat} (v : Byte) (ha : a < spaceSize) (hm : m.wf = true) :
    (m.write a v).wf = true := by
  rw [Memory.wf_iff] at hm ⊢
  obtain ⟨hr, hc⟩ := hm
  unfold Memory.write
  by_cases hv : v = unlistedByte
  · rw [if_pos hv]
    exact ⟨Memory.risingFrom_erase a hr, fun c h => hc c (Memory.mem_erase h)⟩
  · rw [if_neg hv]
    refine ⟨Memory.risingFrom_insert v (Nat.zero_le a) (Memory.not_mem_erase m a) (Memory.risingFrom_erase a hr), ?_⟩
    intro c h
    rcases Memory.mem_insert h with h | h
    · subst h; exact ⟨ha, hv⟩
    · exact hc c (Memory.mem_erase h)

/-! ### Several writes -/

/-- Writes at the memory addresses under bus addresses, in order. -/
def Memory.writeAll (m : Memory) : List (Addr × Byte) → Memory
  | []           => m
  | (a, v) :: ws => Memory.writeAll (m.write (lowAddr a) v) ws

theorem lowAddr_lt (a : Addr) : lowAddr a < spaceSize := Nat.mod_lt _ (by decide)

theorem lowAddr_of_lt {a : Addr} (h : a.toNat < spaceSize) : lowAddr a = a.toNat := Nat.mod_eq_of_lt h

theorem Memory.read_writeAll_other {ws : List (Addr × Byte)} {b : Nat} (h : ∀ w ∈ ws, lowAddr w.1 ≠ b) (m : Memory) :
    (m.writeAll ws).read b = m.read b := by
  induction ws generalizing m with
  | nil => rfl
  | cons w ws ih =>
    rw [Memory.writeAll, ih (fun w hw => h w (by simp [hw])), Memory.read_write_other]
    exact fun e => h w (by simp) e.symm

/-- Writes at distinct addresses are all read back. -/
theorem Memory.read_writeAll_mem {ws : List (Addr × Byte)} (hd : (ws.map (fun w => lowAddr w.1)).Nodup) (m : Memory)
    {w : Addr × Byte} (hw : w ∈ ws) : (m.writeAll ws).read (lowAddr w.1) = w.2 := by
  induction ws generalizing m with
  | nil => simp at hw
  | cons x ws ih =>
    simp only [List.map_cons, List.nodup_cons, List.mem_map, not_exists, not_and] at hd
    rw [Memory.writeAll]
    rcases List.mem_cons.1 hw with h | h
    · subst h
      rw [Memory.read_writeAll_other (fun y hy => hd.1 y hy), Memory.read_write_same]
    · exact ih hd.2 _ h

theorem Memory.wf_writeAll {m : Memory} (ws : List (Addr × Byte)) (hm : m.wf = true) : (m.writeAll ws).wf = true := by
  induction ws generalizing m with
  | nil => exact hm
  | cons w ws ih => exact ih (Memory.wf_write _ (lowAddr_lt _) hm)

end Sys2Proof.Machine
end

