-- ==== Sys2Proof/Laws/State.lean ====
section
/-! SUPPORT. One lemma per field for each named update of State. -/

namespace Sys2Proof.Machine

/-! ### State.record -/

@[simp] theorem State.record_mode (s : State) (e : BusEvent) : (s.record e).mode = s.mode := rfl
@[simp] theorem State.record_flags (s : State) (e : BusEvent) : (s.record e).flags = s.flags := rfl
@[simp] theorem State.record_curH (s : State) (e : BusEvent) : (s.record e).curH = s.curH := rfl
@[simp] theorem State.record_curL (s : State) (e : BusEvent) : (s.record e).curL = s.curL := rfl
@[simp] theorem State.record_remain (s : State) (e : BusEvent) : (s.record e).remain = s.remain := rfl
@[simp] theorem State.record_stall (s : State) (e : BusEvent) : (s.record e).stall = s.stall := rfl
@[simp] theorem State.record_lines (s : State) (e : BusEvent) : (s.record e).lines = s.lines := rfl
@[simp] theorem State.record_busCfg (s : State) (e : BusEvent) : (s.record e).busCfg = s.busCfg := rfl
@[simp] theorem State.record_rstLatch (s : State) (e : BusEvent) : (s.record e).rstLatch = s.rstLatch := rfl
@[simp] theorem State.record_tickLatch (s : State) (e : BusEvent) : (s.record e).tickLatch = s.tickLatch := rfl
@[simp] theorem State.record_inWin (s : State) (e : BusEvent) : (s.record e).inWin = s.inWin := rfl
@[simp] theorem State.record_outWin (s : State) (e : BusEvent) : (s.record e).outWin = s.outWin := rfl
@[simp] theorem State.record_dec (s : State) (e : BusEvent) : (s.record e).dec = s.dec := rfl
@[simp] theorem State.record_mem (s : State) (e : BusEvent) : (s.record e).mem = s.mem := rfl
@[simp] theorem State.record_hist (s : State) (e : BusEvent) : (s.record e).hist = e :: s.hist := rfl
@[simp] theorem State.record_cfg (s : State) (e : BusEvent) : (s.record e).cfg = s.cfg := rfl
@[simp] theorem State.record_draws (s : State) (e : BusEvent) : (s.record e).draws = s.draws := rfl
@[simp] theorem State.record_hostIn (s : State) (e : BusEvent) : (s.record e).hostIn = s.hostIn := rfl
@[simp] theorem State.record_hostOut (s : State) (e : BusEvent) : (s.record e).hostOut = s.hostOut := rfl
@[simp] theorem State.record_drawn (s : State) (e : BusEvent) : (s.record e).drawn = s.drawn := rfl

/-! ### State.setBusCfg -/

@[simp] theorem State.setBusCfg_mode (s : State) (c : BusCfg) : (s.setBusCfg c).mode = s.mode := rfl
@[simp] theorem State.setBusCfg_flags (s : State) (c : BusCfg) : (s.setBusCfg c).flags = s.flags := rfl
@[simp] theorem State.setBusCfg_curH (s : State) (c : BusCfg) : (s.setBusCfg c).curH = s.curH := rfl
@[simp] theorem State.setBusCfg_curL (s : State) (c : BusCfg) : (s.setBusCfg c).curL = s.curL := rfl
@[simp] theorem State.setBusCfg_remain (s : State) (c : BusCfg) : (s.setBusCfg c).remain = s.remain := rfl
@[simp] theorem State.setBusCfg_stall (s : State) (c : BusCfg) : (s.setBusCfg c).stall = s.stall := rfl
@[simp] theorem State.setBusCfg_lines (s : State) (c : BusCfg) : (s.setBusCfg c).lines = s.lines := rfl
@[simp] theorem State.setBusCfg_busCfg (s : State) (c : BusCfg) : (s.setBusCfg c).busCfg = c := rfl
@[simp] theorem State.setBusCfg_rstLatch (s : State) (c : BusCfg) : (s.setBusCfg c).rstLatch = s.rstLatch := rfl
@[simp] theorem State.setBusCfg_tickLatch (s : State) (c : BusCfg) : (s.setBusCfg c).tickLatch = s.tickLatch := rfl
@[simp] theorem State.setBusCfg_inWin (s : State) (c : BusCfg) : (s.setBusCfg c).inWin = s.inWin := rfl
@[simp] theorem State.setBusCfg_outWin (s : State) (c : BusCfg) : (s.setBusCfg c).outWin = s.outWin := rfl
@[simp] theorem State.setBusCfg_dec (s : State) (c : BusCfg) : (s.setBusCfg c).dec = s.dec := rfl
@[simp] theorem State.setBusCfg_mem (s : State) (c : BusCfg) : (s.setBusCfg c).mem = s.mem := rfl
@[simp] theorem State.setBusCfg_hist (s : State) (c : BusCfg) : (s.setBusCfg c).hist = .cfg c :: s.hist := rfl
@[simp] theorem State.setBusCfg_cfg (s : State) (c : BusCfg) : (s.setBusCfg c).cfg = s.cfg := rfl
@[simp] theorem State.setBusCfg_draws (s : State) (c : BusCfg) : (s.setBusCfg c).draws = s.draws := rfl
@[simp] theorem State.setBusCfg_hostIn (s : State) (c : BusCfg) : (s.setBusCfg c).hostIn = s.hostIn := rfl
@[simp] theorem State.setBusCfg_hostOut (s : State) (c : BusCfg) : (s.setBusCfg c).hostOut = s.hostOut := rfl
@[simp] theorem State.setBusCfg_drawn (s : State) (c : BusCfg) : (s.setBusCfg c).drawn = s.drawn := rfl

/-! ### State.setLines -/

@[simp] theorem State.setLines_mode (s : State) (l : Lines) : (s.setLines l).mode = s.mode := rfl
@[simp] theorem State.setLines_flags (s : State) (l : Lines) : (s.setLines l).flags = s.flags := rfl
@[simp] theorem State.setLines_curH (s : State) (l : Lines) : (s.setLines l).curH = s.curH := rfl
@[simp] theorem State.setLines_curL (s : State) (l : Lines) : (s.setLines l).curL = s.curL := rfl
@[simp] theorem State.setLines_remain (s : State) (l : Lines) : (s.setLines l).remain = s.remain := rfl
@[simp] theorem State.setLines_stall (s : State) (l : Lines) : (s.setLines l).stall = s.stall := rfl
@[simp] theorem State.setLines_lines (s : State) (l : Lines) : (s.setLines l).lines = l := rfl
@[simp] theorem State.setLines_busCfg (s : State) (l : Lines) : (s.setLines l).busCfg = s.busCfg := rfl
@[simp] theorem State.setLines_rstLatch (s : State) (l : Lines) : (s.setLines l).rstLatch = s.rstLatch := rfl
@[simp] theorem State.setLines_tickLatch (s : State) (l : Lines) : (s.setLines l).tickLatch = s.tickLatch := rfl
@[simp] theorem State.setLines_inWin (s : State) (l : Lines) : (s.setLines l).inWin = s.inWin := rfl
@[simp] theorem State.setLines_outWin (s : State) (l : Lines) : (s.setLines l).outWin = s.outWin := rfl
@[simp] theorem State.setLines_dec (s : State) (l : Lines) : (s.setLines l).dec = s.dec := rfl
@[simp] theorem State.setLines_mem (s : State) (l : Lines) : (s.setLines l).mem = s.mem := rfl
@[simp] theorem State.setLines_hist (s : State) (l : Lines) : (s.setLines l).hist = .lines l :: s.hist := rfl
@[simp] theorem State.setLines_cfg (s : State) (l : Lines) : (s.setLines l).cfg = s.cfg := rfl
@[simp] theorem State.setLines_draws (s : State) (l : Lines) : (s.setLines l).draws = s.draws := rfl
@[simp] theorem State.setLines_hostIn (s : State) (l : Lines) : (s.setLines l).hostIn = s.hostIn := rfl
@[simp] theorem State.setLines_hostOut (s : State) (l : Lines) : (s.setLines l).hostOut = s.hostOut := rfl
@[simp] theorem State.setLines_drawn (s : State) (l : Lines) : (s.setLines l).drawn = s.drawn := rfl

/-! ### State.drawByte -/

@[simp] theorem State.drawByte_mode (s : State) : (s.drawByte).mode = s.mode := rfl
@[simp] theorem State.drawByte_flags (s : State) : (s.drawByte).flags = s.flags := rfl
@[simp] theorem State.drawByte_curH (s : State) : (s.drawByte).curH = s.curH := rfl
@[simp] theorem State.drawByte_curL (s : State) : (s.drawByte).curL = s.curL := rfl
@[simp] theorem State.drawByte_remain (s : State) : (s.drawByte).remain = s.remain := rfl
@[simp] theorem State.drawByte_stall (s : State) : (s.drawByte).stall = s.stall := rfl
@[simp] theorem State.drawByte_lines (s : State) : (s.drawByte).lines = s.lines := rfl
@[simp] theorem State.drawByte_busCfg (s : State) : (s.drawByte).busCfg = s.busCfg := rfl
@[simp] theorem State.drawByte_rstLatch (s : State) : (s.drawByte).rstLatch = s.rstLatch := rfl
@[simp] theorem State.drawByte_tickLatch (s : State) : (s.drawByte).tickLatch = s.tickLatch := rfl
@[simp] theorem State.drawByte_inWin (s : State) : (s.drawByte).inWin = s.inWin := rfl
@[simp] theorem State.drawByte_outWin (s : State) : (s.drawByte).outWin = s.outWin := rfl
@[simp] theorem State.drawByte_dec (s : State) : (s.drawByte).dec = s.dec := rfl
@[simp] theorem State.drawByte_mem (s : State) : (s.drawByte).mem = s.mem := rfl
@[simp] theorem State.drawByte_hist (s : State) : (s.drawByte).hist = s.hist := rfl
@[simp] theorem State.drawByte_cfg (s : State) : (s.drawByte).cfg = s.cfg := rfl
@[simp] theorem State.drawByte_draws (s : State) : (s.drawByte).draws = s.draws := rfl
@[simp] theorem State.drawByte_hostIn (s : State) : (s.drawByte).hostIn = s.hostIn := rfl
@[simp] theorem State.drawByte_hostOut (s : State) : (s.drawByte).hostOut = s.hostOut := rfl
@[simp] theorem State.drawByte_drawn (s : State) : (s.drawByte).drawn = s.drawn + 1 := rfl

/-! ### State.setU -/

@[simp] theorem State.setU_mode (s : State) (v : Bool) : (s.setU v).mode = s.mode := rfl
@[simp] theorem State.setU_flags (s : State) (v : Bool) : (s.setU v).flags = ⟨v, s.flags.p, s.flags.r⟩ := rfl
@[simp] theorem State.setU_curH (s : State) (v : Bool) : (s.setU v).curH = s.curH := rfl
@[simp] theorem State.setU_curL (s : State) (v : Bool) : (s.setU v).curL = s.curL := rfl
@[simp] theorem State.setU_remain (s : State) (v : Bool) : (s.setU v).remain = s.remain := rfl
@[simp] theorem State.setU_stall (s : State) (v : Bool) : (s.setU v).stall = s.stall := rfl
@[simp] theorem State.setU_lines (s : State) (v : Bool) : (s.setU v).lines = s.lines := rfl
@[simp] theorem State.setU_busCfg (s : State) (v : Bool) : (s.setU v).busCfg = s.busCfg := rfl
@[simp] theorem State.setU_rstLatch (s : State) (v : Bool) : (s.setU v).rstLatch = s.rstLatch := rfl
@[simp] theorem State.setU_tickLatch (s : State) (v : Bool) : (s.setU v).tickLatch = s.tickLatch := rfl
@[simp] theorem State.setU_inWin (s : State) (v : Bool) : (s.setU v).inWin = s.inWin := rfl
@[simp] theorem State.setU_outWin (s : State) (v : Bool) : (s.setU v).outWin = s.outWin := rfl
@[simp] theorem State.setU_dec (s : State) (v : Bool) : (s.setU v).dec = s.dec := rfl
@[simp] theorem State.setU_mem (s : State) (v : Bool) : (s.setU v).mem = s.mem := rfl
@[simp] theorem State.setU_hist (s : State) (v : Bool) : (s.setU v).hist = s.hist := rfl
@[simp] theorem State.setU_cfg (s : State) (v : Bool) : (s.setU v).cfg = s.cfg := rfl
@[simp] theorem State.setU_draws (s : State) (v : Bool) : (s.setU v).draws = s.draws := rfl
@[simp] theorem State.setU_hostIn (s : State) (v : Bool) : (s.setU v).hostIn = s.hostIn := rfl
@[simp] theorem State.setU_hostOut (s : State) (v : Bool) : (s.setU v).hostOut = s.hostOut := rfl
@[simp] theorem State.setU_drawn (s : State) (v : Bool) : (s.setU v).drawn = s.drawn := rfl

/-! ### State.setP -/

@[simp] theorem State.setP_mode (s : State) (v : Bool) : (s.setP v).mode = s.mode := rfl
@[simp] theorem State.setP_flags (s : State) (v : Bool) : (s.setP v).flags = ⟨s.flags.u, v, s.flags.r⟩ := rfl
@[simp] theorem State.setP_curH (s : State) (v : Bool) : (s.setP v).curH = s.curH := rfl
@[simp] theorem State.setP_curL (s : State) (v : Bool) : (s.setP v).curL = s.curL := rfl
@[simp] theorem State.setP_remain (s : State) (v : Bool) : (s.setP v).remain = s.remain := rfl
@[simp] theorem State.setP_stall (s : State) (v : Bool) : (s.setP v).stall = s.stall := rfl
@[simp] theorem State.setP_lines (s : State) (v : Bool) : (s.setP v).lines =
    ⟨(ptLevels s.cfg.ptLines v).oe, (ptLevels s.cfg.ptLines v).gb, s.lines.rst⟩ := rfl
@[simp] theorem State.setP_busCfg (s : State) (v : Bool) : (s.setP v).busCfg = s.busCfg := rfl
@[simp] theorem State.setP_rstLatch (s : State) (v : Bool) : (s.setP v).rstLatch = s.rstLatch := rfl
@[simp] theorem State.setP_tickLatch (s : State) (v : Bool) : (s.setP v).tickLatch = s.tickLatch := rfl
@[simp] theorem State.setP_inWin (s : State) (v : Bool) : (s.setP v).inWin = s.inWin := rfl
@[simp] theorem State.setP_outWin (s : State) (v : Bool) : (s.setP v).outWin = s.outWin := rfl
@[simp] theorem State.setP_dec (s : State) (v : Bool) : (s.setP v).dec = s.dec := rfl
@[simp] theorem State.setP_mem (s : State) (v : Bool) : (s.setP v).mem = s.mem := rfl
@[simp] theorem State.setP_hist (s : State) (v : Bool) : (s.setP v).hist =
    .lines ⟨(ptLevels s.cfg.ptLines v).oe, (ptLevels s.cfg.ptLines v).gb, s.lines.rst⟩ :: s.hist := rfl
@[simp] theorem State.setP_cfg (s : State) (v : Bool) : (s.setP v).cfg = s.cfg := rfl
@[simp] theorem State.setP_draws (s : State) (v : Bool) : (s.setP v).draws = s.draws := rfl
@[simp] theorem State.setP_hostIn (s : State) (v : Bool) : (s.setP v).hostIn = s.hostIn := rfl
@[simp] theorem State.setP_hostOut (s : State) (v : Bool) : (s.setP v).hostOut = s.hostOut := rfl
@[simp] theorem State.setP_drawn (s : State) (v : Bool) : (s.setP v).drawn = s.drawn := rfl

/-! ### State.setR -/

@[simp] theorem State.setR_mode (s : State) (v : Bool) : (s.setR v).mode = s.mode := rfl
@[simp] theorem State.setR_flags (s : State) (v : Bool) : (s.setR v).flags = ⟨s.flags.u, s.flags.p, v⟩ := rfl
@[simp] theorem State.setR_curH (s : State) (v : Bool) : (s.setR v).curH = s.curH := rfl
@[simp] theorem State.setR_curL (s : State) (v : Bool) : (s.setR v).curL = s.curL := rfl
@[simp] theorem State.setR_remain (s : State) (v : Bool) : (s.setR v).remain = s.remain := rfl
@[simp] theorem State.setR_stall (s : State) (v : Bool) : (s.setR v).stall = s.stall := rfl
@[simp] theorem State.setR_lines (s : State) (v : Bool) : (s.setR v).lines = ⟨s.lines.oe, s.lines.gb, v⟩ := rfl
@[simp] theorem State.setR_busCfg (s : State) (v : Bool) : (s.setR v).busCfg = s.busCfg := rfl
@[simp] theorem State.setR_rstLatch (s : State) (v : Bool) : (s.setR v).rstLatch = s.rstLatch := rfl
@[simp] theorem State.setR_tickLatch (s : State) (v : Bool) : (s.setR v).tickLatch = s.tickLatch := rfl
@[simp] theorem State.setR_inWin (s : State) (v : Bool) : (s.setR v).inWin = s.inWin := rfl
@[simp] theorem State.setR_outWin (s : State) (v : Bool) : (s.setR v).outWin = s.outWin := rfl
@[simp] theorem State.setR_dec (s : State) (v : Bool) : (s.setR v).dec = s.dec := rfl
@[simp] theorem State.setR_mem (s : State) (v : Bool) : (s.setR v).mem = s.mem := rfl
@[simp] theorem State.setR_hist (s : State) (v : Bool) : (s.setR v).hist =
    .lines ⟨s.lines.oe, s.lines.gb, v⟩ :: s.hist := rfl
@[simp] theorem State.setR_cfg (s : State) (v : Bool) : (s.setR v).cfg = s.cfg := rfl
@[simp] theorem State.setR_draws (s : State) (v : Bool) : (s.setR v).draws = s.draws := rfl
@[simp] theorem State.setR_hostIn (s : State) (v : Bool) : (s.setR v).hostIn = s.hostIn := rfl
@[simp] theorem State.setR_hostOut (s : State) (v : Bool) : (s.setR v).hostOut = s.hostOut := rfl
@[simp] theorem State.setR_drawn (s : State) (v : Bool) : (s.setR v).drawn = s.drawn := rfl

/-! ### resetProcedure -/

@[simp] theorem resetProcedure_mode (s : State) : (resetProcedure s).mode = .command := rfl
@[simp] theorem resetProcedure_flags (s : State) : (resetProcedure s).flags = ⟨false, false, false⟩ := rfl
@[simp] theorem resetProcedure_curH (s : State) : (resetProcedure s).curH = 0 := rfl
@[simp] theorem resetProcedure_curL (s : State) : (resetProcedure s).curL = 0 := rfl
@[simp] theorem resetProcedure_remain (s : State) : (resetProcedure s).remain = 0 := rfl
@[simp] theorem resetProcedure_stall (s : State) : (resetProcedure s).stall = 0 := rfl
@[simp] theorem resetProcedure_lines (s : State) : (resetProcedure s).lines = ⟨false, false, false⟩ := rfl
@[simp] theorem resetProcedure_busCfg (s : State) : (resetProcedure s).busCfg = .idle := rfl
@[simp] theorem resetProcedure_rstLatch (s : State) : (resetProcedure s).rstLatch = s.rstLatch := rfl
@[simp] theorem resetProcedure_tickLatch (s : State) : (resetProcedure s).tickLatch = s.tickLatch := rfl
@[simp] theorem resetProcedure_inWin (s : State) : (resetProcedure s).inWin = [] := rfl
@[simp] theorem resetProcedure_outWin (s : State) : (resetProcedure s).outWin = [] := rfl
@[simp] theorem resetProcedure_dec (s : State) : (resetProcedure s).dec = s.cfg.codecReset := rfl
@[simp] theorem resetProcedure_mem (s : State) : (resetProcedure s).mem = s.mem := rfl
@[simp] theorem resetProcedure_hist (s : State) : (resetProcedure s).hist =
    .lines ⟨false, false, false⟩ :: .cfg .idle :: s.hist := rfl
@[simp] theorem resetProcedure_cfg (s : State) : (resetProcedure s).cfg = s.cfg := rfl
@[simp] theorem resetProcedure_draws (s : State) : (resetProcedure s).draws = s.draws := rfl
@[simp] theorem resetProcedure_hostIn (s : State) : (resetProcedure s).hostIn = s.hostIn := rfl
@[simp] theorem resetProcedure_hostOut (s : State) : (resetProcedure s).hostOut = s.hostOut := rfl
@[simp] theorem resetProcedure_drawn (s : State) : (resetProcedure s).drawn = s.drawn := rfl

/-! ### enterStream -/

@[simp] theorem enterStream_mode (m : Mode) (c : BusCfg) (s : State) : (enterStream m c s).mode = m := rfl
@[simp] theorem enterStream_flags (m : Mode) (c : BusCfg) (s : State) : (enterStream m c s).flags = s.flags := rfl
@[simp] theorem enterStream_curH (m : Mode) (c : BusCfg) (s : State) : (enterStream m c s).curH = 0 := rfl
@[simp] theorem enterStream_curL (m : Mode) (c : BusCfg) (s : State) : (enterStream m c s).curL = 0 := rfl
@[simp] theorem enterStream_remain (m : Mode) (c : BusCfg) (s : State) : (enterStream m c s).remain = streamLen := rfl
@[simp] theorem enterStream_stall (m : Mode) (c : BusCfg) (s : State) : (enterStream m c s).stall = s.stall := rfl
@[simp] theorem enterStream_lines (m : Mode) (c : BusCfg) (s : State) : (enterStream m c s).lines = s.lines := rfl
@[simp] theorem enterStream_busCfg (m : Mode) (c : BusCfg) (s : State) : (enterStream m c s).busCfg = c := rfl
@[simp] theorem enterStream_rstLatch (m : Mode) (c : BusCfg) (s : State) : (enterStream m c s).rstLatch =
    s.rstLatch := rfl
@[simp] theorem enterStream_tickLatch (m : Mode) (c : BusCfg) (s : State) : (enterStream m c s).tickLatch =
    s.tickLatch := rfl
@[simp] theorem enterStream_inWin (m : Mode) (c : BusCfg) (s : State) : (enterStream m c s).inWin = s.inWin := rfl
@[simp] theorem enterStream_outWin (m : Mode) (c : BusCfg) (s : State) : (enterStream m c s).outWin = s.outWin := rfl
@[simp] theorem enterStream_dec (m : Mode) (c : BusCfg) (s : State) : (enterStream m c s).dec = s.dec := rfl
@[simp] theorem enterStream_mem (m : Mode) (c : BusCfg) (s : State) : (enterStream m c s).mem = s.mem := rfl
@[simp] theorem enterStream_hist (m : Mode) (c : BusCfg) (s : State) : (enterStream m c s).hist =
    .cfg c :: s.hist := rfl
@[simp] theorem enterStream_cfg (m : Mode) (c : BusCfg) (s : State) : (enterStream m c s).cfg = s.cfg := rfl
@[simp] theorem enterStream_draws (m : Mode) (c : BusCfg) (s : State) : (enterStream m c s).draws = s.draws := rfl
@[simp] theorem enterStream_hostIn (m : Mode) (c : BusCfg) (s : State) : (enterStream m c s).hostIn = s.hostIn := rfl
@[simp] theorem enterStream_hostOut (m : Mode) (c : BusCfg) (s : State) : (enterStream m c s).hostOut = s.hostOut := rfl
@[simp] theorem enterStream_drawn (m : Mode) (c : BusCfg) (s : State) : (enterStream m c s).drawn = s.drawn := rfl

/-! ### completeStream -/

@[simp] theorem completeStream_mode (s : State) : (completeStream s).mode = .command := rfl
@[simp] theorem completeStream_flags (s : State) : (completeStream s).flags = s.flags := rfl
@[simp] theorem completeStream_curH (s : State) : (completeStream s).curH = s.curH := rfl
@[simp] theorem completeStream_curL (s : State) : (completeStream s).curL = s.curL := rfl
@[simp] theorem completeStream_remain (s : State) : (completeStream s).remain = s.remain := rfl
@[simp] theorem completeStream_stall (s : State) : (completeStream s).stall = s.stall := rfl
@[simp] theorem completeStream_lines (s : State) : (completeStream s).lines = s.lines := rfl
@[simp] theorem completeStream_busCfg (s : State) : (completeStream s).busCfg = .idle := rfl
@[simp] theorem completeStream_rstLatch (s : State) : (completeStream s).rstLatch = s.rstLatch := rfl
@[simp] theorem completeStream_tickLatch (s : State) : (completeStream s).tickLatch = s.tickLatch := rfl
@[simp] theorem completeStream_inWin (s : State) : (completeStream s).inWin = s.inWin := rfl
@[simp] theorem completeStream_outWin (s : State) : (completeStream s).outWin = s.outWin := rfl
@[simp] theorem completeStream_dec (s : State) : (completeStream s).dec = s.dec := rfl
@[simp] theorem completeStream_mem (s : State) : (completeStream s).mem = s.mem := rfl
@[simp] theorem completeStream_hist (s : State) : (completeStream s).hist = .cfg .idle :: s.hist := rfl
@[simp] theorem completeStream_cfg (s : State) : (completeStream s).cfg = s.cfg := rfl
@[simp] theorem completeStream_draws (s : State) : (completeStream s).draws = s.draws := rfl
@[simp] theorem completeStream_hostIn (s : State) : (completeStream s).hostIn = s.hostIn := rfl
@[simp] theorem completeStream_hostOut (s : State) : (completeStream s).hostOut = s.hostOut := rfl
@[simp] theorem completeStream_drawn (s : State) : (completeStream s).drawn = s.drawn := rfl

end Sys2Proof.Machine
end

