-- ==== Sys2Proof/Laws/Bus.lean ====
section
/-! SUPPORT. The bus port: addresses, what one access and a row of accesses do. -/

namespace Sys2Proof.Machine

/-! ### Addresses -/

theorem busAddr_toNat (h o : Byte) : (busAddr h o).toNat = 256 * h.toNat + o.toNat := by
  have := h.isLt; have := o.isLt
  simp only [busAddr, BitVec.toNat_append]
  rw [Nat.shiftLeft_eq, ← Nat.shiftLeft_eq, Nat.shiftLeft_add_eq_or_of_lt (by omega) h.toNat |>.symm, Nat.shiftLeft_eq]
  omega

theorem cursor_toNat (s : State) : (cursor s).toNat = 256 * s.curH.toNat + s.curL.toNat := busAddr_toNat _ _

@[simp] theorem blockAddrs_length (h : Byte) : (blockAddrs h).length = 256 := by simp [blockAddrs, blockSize]

theorem blockAddrs_getElem (h : Byte) (o : Nat) (ho : o < (blockAddrs h).length) :
    (blockAddrs h)[o] = busAddr h (BitVec.ofNat 8 o) := by simp [blockAddrs]

theorem busAddr_ofNat_toNat (h : Byte) {o : Nat} (ho : o < 256) :
    (busAddr h (BitVec.ofNat 8 o)).toNat = 256 * h.toNat + o := by
  rw [busAddr_toNat, BitVec.toNat_ofNat]; omega

theorem lowAddr_busAddr (h : Byte) {o : Nat} (ho : o < 256) :
    lowAddr (busAddr h (BitVec.ofNat 8 o)) = 256 * (h.toNat % 128) + o := by
  have := h.isLt
  rw [lowAddr, busAddr_ofNat_toNat h ho, spaceSize]; omega

theorem mem_blockAddrs {h : Byte} {a : Addr} (ha : a ∈ blockAddrs h) :
    ∃ o < 256, a = busAddr h (BitVec.ofNat 8 o) := by
  simp only [blockAddrs, List.mem_map, List.mem_range] at ha
  obtain ⟨o, ho, rfl⟩ := ha
  exact ⟨o, ho, rfl⟩

theorem blockAddrs_lt {h : Byte} (hh : h.toNat < 128) {a : Addr} (ha : a ∈ blockAddrs h) : a.toNat < spaceSize := by
  obtain ⟨o, ho, rfl⟩ := mem_blockAddrs ha
  rw [busAddr_ofNat_toNat h ho, spaceSize]; omega

theorem blockAddrs_nodup (h : Byte) : ((blockAddrs h).map lowAddr).Nodup := by
  rw [List.nodup_iff_injective_getElem]
  intro ⟨i, hi⟩ ⟨j, hj⟩ e
  simp only [List.length_map, blockAddrs_length] at hi hj
  simp only [List.getElem_map, blockAddrs_getElem, lowAddr_busAddr h hi, lowAddr_busAddr h hj] at e
  ext; simp only; omega

/-! ### One access -/

/-- Where an access needs no free byte (R53 to R55): below 0x8000, or under `Alias`. -/
def PlainBus (s : State) (a : Addr) : Prop := a.toNat < spaceSize ∨ s.cfg.extHigh = .mirror

theorem busValue_plain {s : State} {a : Addr} (h : PlainBus s a) : busValue s a = s.mem.read (lowAddr a) := by
  unfold busValue
  split
  · rename_i hlt; rw [lowAddr_of_lt hlt]
  · rcases h with h | h
    · contradiction
    · rw [h]

theorem afterDraw_plain {s : State} {a : Addr} (h : PlainBus s a) : afterDraw s a = s := by
  unfold afterDraw
  split
  · rfl
  · rcases h with h | h
    · contradiction
    · rw [h]

theorem storedByte_plain {s : State} {a : Addr} (v : Byte) (h : PlainBus s a) : storedByte s a v = v := by
  unfold storedByte
  split
  · rfl
  · rcases h with h | h
    · contradiction
    · rw [h]

/-- All an access draws is free bytes. -/
theorem afterDraw_eq (s : State) (a : Addr) : afterDraw s a = { s with drawn := (afterDraw s a).drawn } := by
  unfold afterDraw; split
  · rfl
  · split <;> rfl

/-- A read changes HIST and the count of free bytes only. -/
theorem memRead_state (s : State) (a : Addr) :
    (memRead s a).2 = { s with hist := .rd a (busValue s a) :: s.hist, drawn := (afterDraw s a).drawn } := by
  rw [memRead, afterDraw_eq]; rfl

/-- A write changes MEM, HIST and the count of free bytes only. -/
theorem memWrite_state (s : State) (a : Addr) (v : Byte) :
    memWrite s a v = { s with mem := s.mem.write (lowAddr a) (storedByte s a v), hist := .wr a v :: s.hist,
                              drawn := (afterDraw s a).drawn } := by
  rw [memWrite, afterDraw_eq]; rfl

theorem memRead_plain {s : State} {a : Addr} (h : PlainBus s a) :
    memRead s a = (s.mem.read (lowAddr a), { s with hist := .rd a (s.mem.read (lowAddr a)) :: s.hist }) := by
  rw [memRead, busValue_plain h, afterDraw_plain h]; rfl

theorem memWrite_plain {s : State} {a : Addr} (v : Byte) (h : PlainBus s a) :
    memWrite s a v = { s with mem := s.mem.write (lowAddr a) v, hist := .wr a v :: s.hist } := by
  rw [memWrite_state, storedByte_plain v h, afterDraw_plain h]

/-! ### Accesses in a row -/

@[simp] theorem memReads_length (as : List Addr) (s : State) : (memReads as s).1.length = as.length := by
  induction as generalizing s with
  | nil => rfl
  | cons a as ih => simp [memReads, ih]

/-- Reads in a row change HIST, by one event each in order, and the count of free bytes only. -/
theorem memReads_state (as : List Addr) (s : State) :
    (memReads as s).2 = { s with hist := readEvents as (memReads as s).1 ++ s.hist,
                                 drawn := (memReads as s).2.drawn } := by
  induction as generalizing s with
  | nil => rfl
  | cons a as ih =>
    simp only [memReads]
    rw [ih, memRead_state]
    simp [readEvents, memRead]

/-- Reads in a row that need no free byte return the memory's bytes. -/
theorem memReads_plain {as : List Addr} {s : State} (h : ∀ a ∈ as, PlainBus s a) :
    memReads as s = (as.map (fun a => s.mem.read (lowAddr a)),
      { s with hist := readEvents as (as.map (fun a => s.mem.read (lowAddr a))) ++ s.hist }) := by
  induction as generalizing s with
  | nil => rfl
  | cons a as ih =>
    rw [memReads, memRead_plain (h a (by simp))]
    dsimp only
    rw [ih (s := { s with hist := .rd a (s.mem.read (lowAddr a)) :: s.hist }) (fun b hb => h b (by simp [hb]))]
    simp [readEvents]

/-- Writes in a row change MEM, HIST, by one event each in order, and the count of free bytes only. -/
theorem memWrites_state (ws : List (Addr × Byte)) (s : State) :
    memWrites ws s = { s with mem := (memWrites ws s).mem, hist := writeEvents ws ++ s.hist,
                              drawn := (memWrites ws s).drawn } := by
  induction ws generalizing s with
  | nil => rfl
  | cons w ws ih =>
    obtain ⟨a, v⟩ := w
    simp only [memWrites]
    rw [ih, memWrite_state]
    simp [writeEvents]

/-- Writes in a row leave every byte alone that none of them addresses. -/
theorem memWrites_read_other {ws : List (Addr × Byte)} {b : Nat} (h : ∀ w ∈ ws, lowAddr w.1 ≠ b) (s : State) :
    (memWrites ws s).mem.read b = s.mem.read b := by
  induction ws generalizing s with
  | nil => rfl
  | cons w ws ih =>
    obtain ⟨a, v⟩ := w
    rw [memWrites, ih (fun w hw => h w (by simp [hw])), memWrite_state]
    exact Memory.read_write_other _ _ (fun e => h (a, v) (by simp) e.symm)

/-- Writes in a row that need no free byte. -/
theorem memWrites_plain {ws : List (Addr × Byte)} {s : State} (h : ∀ w ∈ ws, PlainBus s w.1) :
    memWrites ws s = { s with mem := s.mem.writeAll ws, hist := writeEvents ws ++ s.hist } := by
  induction ws generalizing s with
  | nil => rfl
  | cons w ws ih =>
    obtain ⟨a, v⟩ := w
    rw [memWrites, memWrite_plain v (h (a, v) (by simp)),
      ih (s := { s with mem := s.mem.write (lowAddr a) v, hist := .wr a v :: s.hist })
        (fun b hb => h b (by simp [hb]))]
    simp [writeEvents, Memory.writeAll]

theorem memWrites_wf (ws : List (Addr × Byte)) {s : State} (h : s.mem.wf = true) : (memWrites ws s).mem.wf = true := by
  induction ws generalizing s with
  | nil => exact h
  | cons w ws ih =>
    obtain ⟨a, v⟩ := w
    rw [memWrites]
    apply ih
    rw [memWrite_state]
    exact Memory.wf_write _ (lowAddr_lt _) h

/-! ### Accesses that need a free byte -/

/-- Where every access takes a free byte (R55): above 0x7FFF, under the default. -/
def HighBus (s : State) (a : Addr) : Prop := spaceSize ≤ a.toNat ∧ s.cfg.extHigh = .draw

/-- The next `n` free bytes. -/
def freeBytes (s : State) (n : Nat) : List Byte := (List.range n).map (fun k => Config.freeByte (s.drawn + k))

@[simp] theorem freeBytes_length (s : State) (n : Nat) : (freeBytes s n).length = n := by simp [freeBytes]

/-- The next free byte, then those after it. -/
theorem freeBytes_succ {s t : State} (h : t.drawn = s.drawn + 1) (n : Nat) :
    freeBytes s (n + 1) = Config.freeByte s.drawn :: freeBytes t n := by
  simp [freeBytes, List.range_succ_eq_map, h, Function.comp_def, Nat.add_comm, Nat.add_left_comm]

theorem memRead_high {s : State} {a : Addr} (h : HighBus s a) :
    memRead s a = (Config.freeByte s.drawn,
      { s with hist := .rd a (Config.freeByte s.drawn) :: s.hist, drawn := s.drawn + 1 }) := by
  simp [memRead, busValue, afterDraw, Nat.not_lt.2 h.1, h.2, State.nextFree, State.drawByte, State.record]

theorem memWrite_high {s : State} {a : Addr} (v : Byte) (h : HighBus s a) :
    memWrite s a v = { s with mem := s.mem.write (lowAddr a) (Config.freeByte s.drawn), hist := .wr a v :: s.hist,
                              drawn := s.drawn + 1 } := by
  simp [memWrite, storedByte, afterDraw, Nat.not_lt.2 h.1, h.2, State.nextFree, State.drawByte, State.record]

/-- Reads in a row that each take a free byte return the next free bytes, in order. -/
theorem memReads_high {as : List Addr} {s : State} (h : ∀ a ∈ as, HighBus s a) :
    memReads as s = (freeBytes s as.length,
      { s with hist := readEvents as (freeBytes s as.length) ++ s.hist, drawn := s.drawn + as.length }) := by
  induction as generalizing s with
  | nil => rfl
  | cons a as ih =>
    have hf := freeBytes_succ
      (t := { s with hist := .rd a (Config.freeByte s.drawn) :: s.hist, drawn := s.drawn + 1 }) rfl as.length
    rw [memReads, memRead_high (h a (by simp)), List.length_cons, hf]
    dsimp only
    rw [ih (s := { s with hist := .rd a (Config.freeByte s.drawn) :: s.hist, drawn := s.drawn + 1 })
      (fun b hb => h b (by simp [hb]))]
    simp [readEvents]
    omega

/-- Writes in a row that each take a free byte store the next free bytes, in order. -/
theorem memWrites_high {as : List Addr} {vs : List Byte} {s : State} (h : ∀ a ∈ as, HighBus s a)
    (hl : vs.length = as.length) :
    memWrites (as.zip vs) s = { s with
      mem := s.mem.writeAll (as.zip (freeBytes s as.length)), hist := writeEvents (as.zip vs) ++ s.hist
      drawn := s.drawn + as.length } := by
  induction as generalizing s vs with
  | nil => rfl
  | cons a as ih =>
    cases vs with
    | nil => cases hl
    | cons v vs =>
      have hf := freeBytes_succ
        (t := { s with mem := s.mem.write (lowAddr a) (Config.freeByte s.drawn), hist := .wr a v :: s.hist,
                       drawn := s.drawn + 1 }) rfl as.length
      rw [List.zip_cons_cons, memWrites, memWrite_high v (h a (by simp)), List.length_cons, hf]
      rw [ih (s := { s with mem := s.mem.write (lowAddr a) (Config.freeByte s.drawn), hist := .wr a v :: s.hist,
                            drawn := s.drawn + 1 }) (fun b hb => h b (by simp [hb])) (by simpa using hl)]
      simp [writeEvents, Memory.writeAll]
      omega

/-! ### The cursor -/

/-- Advancing changes the cursor only. -/
theorem advance_state (s : State) :
    advance s = { s with curH := (advance s).curH, curL := (advance s).curL } := by
  unfold advance; split <;> rfl

/-- Advancing adds one to the cursor, as long as it is not the last address. -/
theorem advance_toNat {s : State} (h : (cursor s).toNat < 65535) :
    (cursor (advance s)).toNat = (cursor s).toNat + 1 := by
  rw [cursor_toNat] at h ⊢
  rw [cursor_toNat]
  have h1 := s.curH.isLt; have h2 := s.curL.isLt
  have e0 : (0 : Byte).toNat = 0 := rfl
  have e1 : (1 : Byte).toNat = 1 := rfl
  unfold advance
  by_cases hl : s.curL = 0xFF
  · rw [if_pos hl]
    have hl' : s.curL.toNat = 255 := by rw [hl]; rfl
    simp only [BitVec.toNat_add, e0, e1]
    omega
  · rw [if_neg hl]
    have hl' : s.curL.toNat ≠ 255 := fun e => hl (BitVec.eq_of_toNat_eq e)
    simp only [BitVec.toNat_add, e1]
    omega

end Sys2Proof.Machine
end

