-- ==== Sys2Proof/Laws/Commands.lean ====
section
/-! SUPPORT. What a response, an error, a guard and a command can do: each answers a next state only with OUT empty
before and within OUT_CAP after, and changes either OUT alone or what the command's own effect changes. -/

namespace Sys2Proof.Machine

/-! ### Responses -/

/-- OutInstall answers exactly where its premises hold. -/
theorem outInstall_next {f : Fault} {bs : List Byte} {s t : State} :
    outInstall f bs s = .next t ↔ s.outWin = [] ∧ bs.length ≤ s.cfg.outCap ∧ t = { s with outWin := bs } := by
  unfold outInstall
  by_cases h : s.outWin = []
  · by_cases h' : bs.length ≤ s.cfg.outCap
    · simp [h, h', eq_comm]
    · simp [h, h']
  · simp [h]

theorem respond_next {op st : Byte} {q : List Byte} {s t : State} :
    respond op st q s = .next t ↔ CanRespond s st q ∧ t = answered s st q := by
  rw [respond, outInstall_next, CanRespond, and_assoc]; rfl

theorem respond_of_canRespond {op st : Byte} {q : List Byte} {s : State} (h : CanRespond s st q) :
    respond op st q s = .next (answered s st q) := respond_next.2 ⟨h, rfl⟩

theorem respondOk_next {op : Byte} {q : List Byte} {s t : State} :
    respondOk op q s = .next t ↔ CanRespond s 0xFF q ∧ t = answered s 0xFF q := respond_next

theorem respondOk_of_canRespond {op : Byte} {q : List Byte} {s : State} (h : CanRespond s 0xFF q) :
    respondOk op q s = .next (answered s 0xFF q) := respond_of_canRespond h

/-- Whether a response fits depends on OUT and the parameters only. -/
theorem canRespond_congr {s s' : State} {st : Byte} {q : List Byte} (ho : s'.outWin = s.outWin) (hc : s'.cfg = s.cfg) :
    CanRespond s' st q ↔ CanRespond s st q := by
  simp [CanRespond, ho, hc]

theorem canRespond_of_fits {s : State} {st : Byte} {q : List Byte} (ho : s.outWin = []) (hf : ConfigFits s.cfg)
    (hq : q.length ≤ blockSize ∨ q ∈ policyTexts s.cfg) : CanRespond s st q := ⟨ho, hf.2 st q hq⟩

/-! ### Errors -/

/-- The response of an error, for the causes that respond (R200). -/
def errorText (c : Config) : Cause → List Byte
  | .protocol op   => protocolText op
  | .lock g        => policyText c.lockMsg g
  | .passthrough g => policyText c.ptMsg g
  | .stall         => []
  | .busReset      => []

/-- The causes that respond. -/
def Cause.responds : Cause → Bool
  | .protocol _    => true
  | .lock _        => true
  | .passthrough _ => true
  | .stall         => false
  | .busReset      => false

/-- An error responds and does nothing else. -/
theorem takeCause_error {c : Cause} (hc : c.responds = true) {s t : State} :
    takeCause c s = .next t ↔ CanRespond s 0xFE (errorText s.cfg c) ∧ t = answered s 0xFE (errorText s.cfg c) := by
  cases c <;> first | exact respond_next | cases hc

theorem takeCause_of_canRespond {c : Cause} (hc : c.responds = true) {s : State}
    (h : CanRespond s 0xFE (errorText s.cfg c)) : takeCause c s = .next (answered s 0xFE (errorText s.cfg c)) :=
  (takeCause_error hc).2 ⟨h, rfl⟩

theorem policyText_mem (c : Config) (g : Guarded) :
    policyText c.lockMsg g ∈ policyTexts c ∧ policyText c.ptMsg g ∈ policyTexts c := by
  cases g <;> simp [policyText, policyTexts]

theorem protocolText_length (op : Byte) : (protocolText op).length = 25 := rfl

theorem takeCause_fits {c : Cause} (hc : c.responds = true) {s : State} (ho : s.outWin = []) (hf : ConfigFits s.cfg) :
    ∃ t, takeCause c s = .next t := by
  refine ⟨_, takeCause_of_canRespond hc (canRespond_of_fits ho hf ?_)⟩
  cases c with
  | protocol op => exact .inl (by rw [errorText, protocolText_length]; decide)
  | lock g => exact .inr (policyText_mem _ g).1
  | passthrough g => exact .inr (policyText_mem _ g).2
  | stall => cases hc
  | busReset => cases hc

/-- Reset leaves the state R210 describes. -/
theorem resetProcedure_eq (s : State) : resetProcedure s = resetState s := rfl

/-! ### The guard -/

theorem guarded_open {g : Guarded} {f : State → Result} {s : State} (hu : s.flags.u = true) (hp : s.flags.p = false) :
    guarded g f s = f s := by
  simp [guarded, hu, hp]

theorem guarded_locked {g : Guarded} {f : State → Result} {s : State} (hu : s.flags.u = false) :
    guarded g f s = takeCause (.lock g) s := by
  simp [guarded, hu]

theorem guarded_passthrough {g : Guarded} {f : State → Result} {s : State} (hu : s.flags.u = true)
    (hp : s.flags.p = true) : guarded g f s = takeCause (.passthrough g) s := by
  simp [guarded, hu, hp]

/-- Behind the guard a command runs, or the guard answers with its error. -/
theorem guarded_cases (g : Guarded) (f : State → Result) (s : State) :
    (s.flags.u = true ∧ s.flags.p = false ∧ guarded g f s = f s) ∨
      ∃ c : Cause, c.responds = true ∧ guarded g f s = takeCause c s := by
  cases hu : s.flags.u
  · exact .inr ⟨.lock g, rfl, guarded_locked hu⟩
  · cases hp : s.flags.p
    · exact .inl ⟨rfl, rfl, guarded_open hu hp⟩
    · exact .inr ⟨.passthrough g, rfl, guarded_passthrough hu hp⟩

/-! ### Commands -/

/-- What a command does before it responds. -/
def commandEffect (i : Instr) (s : State) : State :=
  match i with
  | .ping _            => s
  | .version           => s
  | .status            => s
  | .setUnlocked b     => s.setU (flagBit s.cfg.boolDecode b)
  | .setPassthrough b  => s.setP (flagBit s.cfg.boolDecode b)
  | .setReset b        => s.setR (flagBit s.cfg.boolDecode b)
  | .readBlock h       => (readBlockBus h s).2
  | .writeBlock h data => writeBlockBus h data s
  | .rxStream          => enterStream .receiveStream .write s
  | .txStream          => enterStream .transmitStream .read s

/-- The Ok payload of a command (R80). -/
def okPayload (i : Instr) (s : State) : List Byte :=
  match i with
  | .ping p           => p
  | .version          => [0x02, 0x01]
  | .status           => statusBytes s.flags
  | .setUnlocked _    => []
  | .setPassthrough _ => []
  | .setReset _       => []
  | .readBlock h      => (readBlockBus h s).1
  | .writeBlock _ _   => []
  | .rxStream         => []
  | .txStream         => []

/-- Every command either runs whole, and then its guard holds, or answers with an error. -/
theorem exec_cases (i : Instr) (s : State) :
    ((guardOf i ≠ none → s.flags.u = true ∧ s.flags.p = false) ∧ i.wellFormed = true ∧
        exec i s = respondOk (opcode i) (okPayload i s) (commandEffect i s)) ∨
      ∃ c : Cause, c.responds = true ∧ exec i s = takeCause c s := by
  cases i with
  | ping p =>
    by_cases h : p.length ≤ pingMax
    · exact .inl ⟨fun e => absurd rfl e, by simp [Instr.wellFormed, h], by simp [exec, execPing, h, okPayload,
        commandEffect, opcode]⟩
    · exact .inr ⟨.protocol 0x01, rfl, by simp [exec, execPing, h]⟩
  | version => exact .inl ⟨fun e => absurd rfl e, rfl, rfl⟩
  | status => exact .inl ⟨fun e => absurd rfl e, rfl, rfl⟩
  | setUnlocked b => exact .inl ⟨fun e => absurd rfl e, rfl, rfl⟩
  | setPassthrough b => exact .inl ⟨fun e => absurd rfl e, rfl, rfl⟩
  | setReset b => exact .inl ⟨fun e => absurd rfl e, rfl, rfl⟩
  | readBlock h =>
    rcases guarded_cases .readBlock (fun s => respondOk 0x07 (readBlockBus h s).1 (readBlockBus h s).2) s with
      ⟨hu, hp, e⟩ | e
    · exact .inl ⟨fun _ => ⟨hu, hp⟩, rfl, e⟩
    · exact .inr e
  | writeBlock h data =>
    by_cases hl : data.length = blockSize
    · rcases guarded_cases .writeBlock (fun s => respondOk 0x08 [] (writeBlockBus h data s)) s with ⟨hu, hp, e⟩ | e
      · exact .inl ⟨fun _ => ⟨hu, hp⟩, by simp [Instr.wellFormed, hl], by
          simp only [exec, execWriteBlock, hl, if_true]; exact e⟩
      · exact .inr (by simpa [exec, execWriteBlock, hl] using e)
    · exact .inr ⟨.protocol 0x08, rfl, by simp [exec, execWriteBlock, hl]⟩
  | rxStream =>
    rcases guarded_cases .rxStream (fun s => respondOk 0x09 [] (enterStream .receiveStream .write s)) s with
      ⟨hu, hp, e⟩ | e
    · exact .inl ⟨fun _ => ⟨hu, hp⟩, rfl, e⟩
    · exact .inr e
  | txStream =>
    rcases guarded_cases .txStream (fun s => respondOk 0x0A [] (enterStream .transmitStream .read s)) s with
      ⟨hu, hp, e⟩ | e
    · exact .inl ⟨fun _ => ⟨hu, hp⟩, rfl, e⟩
    · exact .inr e

/-- The bus work of read_block changes BUS_CFG, HIST and the count of free bytes only. -/
theorem readBlockBus_state (h : Byte) (s : State) :
    (readBlockBus h s).2 = { s with
      busCfg := .idle
      hist   := .cfg .idle :: (readEvents (blockAddrs h) (readBlockBus h s).1 ++ .cfg .read :: s.hist)
      drawn  := (readBlockBus h s).2.drawn } := by
  simp only [readBlockBus]
  rw [memReads_state]
  rfl

/-- The bus work of write_block changes MEM, BUS_CFG, HIST and the count of free bytes only. -/
theorem writeBlockBus_state (h : Byte) (data : List Byte) (s : State) :
    writeBlockBus h data s = { s with
      mem    := (writeBlockBus h data s).mem
      busCfg := .idle
      hist   := .cfg .idle :: (writeEvents ((blockAddrs h).zip data) ++ .cfg .write :: s.hist)
      drawn  := (writeBlockBus h data s).drawn } := by
  simp only [writeBlockBus]
  rw [memWrites_state]
  rfl

@[simp] theorem readBlockBus_length (h : Byte) (s : State) : (readBlockBus h s).1.length = 256 := by
  simp [readBlockBus]

/-- The bytes under a block's addresses are the only ones write_block changes. -/
theorem writeBlockBus_read_other (h : Byte) (data : List Byte) (s : State) {a : Nat}
    (ha : ∀ x ∈ blockAddrs h, lowAddr x ≠ a) : (writeBlockBus h data s).mem.read a = s.mem.read a := by
  rw [writeBlockBus, State.setBusCfg_mem, memWrites_read_other]
  · rfl
  · exact fun w hw => ha w.1 (List.of_mem_zip (a := w.1) (b := w.2) hw).1

/-- No command's effect touches OUT, the latches, IN, DEC, STALL, the parameters or the host's fields. -/
theorem commandEffect_keeps (i : Instr) (s : State) :
    (commandEffect i s).outWin = s.outWin ∧ (commandEffect i s).cfg = s.cfg ∧ (commandEffect i s).inWin = s.inWin ∧
      (commandEffect i s).dec = s.dec ∧ (commandEffect i s).stall = s.stall ∧
      (commandEffect i s).rstLatch = s.rstLatch ∧ (commandEffect i s).tickLatch = s.tickLatch ∧
      (commandEffect i s).draws = s.draws ∧ (commandEffect i s).hostIn = s.hostIn ∧
      (commandEffect i s).hostOut = s.hostOut := by
  cases i with
  | readBlock h => rw [commandEffect, readBlockBus_state]; simp
  | writeBlock h data => rw [commandEffect, writeBlockBus_state]; simp
  | _ => simp [commandEffect]

/-- What a command that answers a next state has done: OUT was empty and holds the response within OUT_CAP; either
nothing else changed, or the command's guard held and its effect happened. -/
theorem exec_next {i : Instr} {s t : State} (h : exec i s = .next t) :
    s.outWin = [] ∧ t.outWin.length ≤ s.cfg.outCap ∧
      (t = { s with outWin := t.outWin } ∨
        ((guardOf i ≠ none → s.flags.u = true ∧ s.flags.p = false) ∧ i.wellFormed = true ∧
          CanRespond s 0xFF (okPayload i s) ∧ t = answered (commandEffect i s) 0xFF (okPayload i s))) := by
  obtain ⟨ho, hc, -⟩ := commandEffect_keeps i s
  rcases exec_cases i s with ⟨hg, hw, e⟩ | ⟨c, hr, e⟩
  · rw [e, respondOk_next] at h
    obtain ⟨hcan, rfl⟩ := h
    refine ⟨ho ▸ hcan.1, ?_, .inr ⟨hg, hw, (canRespond_congr ho hc).1 hcan, rfl⟩⟩
    simpa [answered, hc] using hcan.2
  · rw [e, takeCause_error hr] at h
    obtain ⟨hcan, rfl⟩ := h
    exact ⟨hcan.1, hcan.2, .inl rfl⟩

/-- A command whose guard holds runs, where its Ok response fits. -/
theorem exec_ok {i : Instr} {s : State} (hw : i.wellFormed = true)
    (hg : guardOf i ≠ none → s.flags.u = true ∧ s.flags.p = false) (hcan : CanRespond s 0xFF (okPayload i s)) :
    exec i s = .next (answered (commandEffect i s) 0xFF (okPayload i s)) := by
  obtain ⟨ho, hc, -⟩ := commandEffect_keeps i s
  have hcan' : CanRespond (commandEffect i s) 0xFF (okPayload i s) := (canRespond_congr ho hc).2 hcan
  cases i with
  | ping p =>
    have hl : p.length ≤ pingMax := by simpa [Instr.wellFormed] using hw
    simpa [exec, execPing, hl, commandEffect, okPayload] using respondOk_of_canRespond (op := 0x01) hcan'
  | version => exact respondOk_of_canRespond hcan'
  | status => exact respondOk_of_canRespond hcan'
  | setUnlocked b => exact respondOk_of_canRespond hcan'
  | setPassthrough b => exact respondOk_of_canRespond hcan'
  | setReset b => exact respondOk_of_canRespond hcan'
  | readBlock h =>
    obtain ⟨hu, hp⟩ := hg (by simp [guardOf])
    simp only [exec, execReadBlock]
    rw [guarded_open hu hp]
    exact respondOk_of_canRespond hcan'
  | writeBlock h data =>
    obtain ⟨hu, hp⟩ := hg (by simp [guardOf])
    have hl : data.length = blockSize := by simpa [Instr.wellFormed] using hw
    simp only [exec, execWriteBlock, hl, if_true]
    rw [guarded_open hu hp]
    exact respondOk_of_canRespond hcan'
  | rxStream =>
    obtain ⟨hu, hp⟩ := hg (by simp [guardOf])
    simp only [exec, execRxStream]
    rw [guarded_open hu hp]
    exact respondOk_of_canRespond hcan'
  | txStream =>
    obtain ⟨hu, hp⟩ := hg (by simp [guardOf])
    simp only [exec, execTxStream]
    rw [guarded_open hu hp]
    exact respondOk_of_canRespond hcan'

/-- The Ok payload of a well-formed command has at most 256 bytes. -/
theorem okPayload_length {i : Instr} (hw : i.wellFormed = true) (s : State) : (okPayload i s).length ≤ blockSize := by
  cases i with
  | ping p =>
    have hl : p.length ≤ pingMax := by simpa [Instr.wellFormed] using hw
    exact Nat.le_trans hl (by decide)
  | readBlock h => simp [okPayload, blockSize]
  | _ => simp [okPayload, blockSize, statusBytes]

end Sys2Proof.Machine
end

