-- ==== Sys2Proof/Laws/Streams.lean ====
section
/-! SUPPORT. What the loops of the stream steps do (R162, R164), in general and while the cursor stays inside the
memory. -/

namespace Sys2Proof.Machine

/-! ### The cursor's next value -/

/-- Advancing, written as one update. -/
theorem advance_update (s : State) :
    advance s = { s with curH := if s.curL = 0xFF then s.curH + 1 else s.curH,
                         curL := if s.curL = 0xFF then 0 else s.curL + 1 } := by
  unfold advance
  split <;> rfl

theorem cursor_advance_of_lt {s : State} (h : (cursor s).toNat < 65535) : cursor (advance s) = cursor s + 1 := by
  apply BitVec.eq_of_toNat_eq
  have e1 : (1 : Addr).toNat = 1 := rfl
  rw [advance_toNat h, BitVec.toNat_add, e1]
  omega

/-- The cursor depends on its two registers only. -/
theorem cursor_congr {s t : State} (hh : t.curH = s.curH) (hl : t.curL = s.curL) : cursor t = cursor s := by
  rw [cursor, cursor, hh, hl]

@[simp] theorem cursorAddrs_length (s : State) (n : Nat) : (cursorAddrs s n).length = n := by simp [cursorAddrs]

theorem cursorAddrs_zero (s : State) : cursorAddrs s 0 = [] := rfl

/-- The addresses from the cursor on: the cursor, then those from the next one on. -/
theorem cursorAddrs_succ {s t : State} (ht : cursor t = cursor s + 1) (n : Nat) :
    cursorAddrs s (n + 1) = cursor s :: cursorAddrs t n := by
  simp only [cursorAddrs, List.range_succ_eq_map, List.map_cons, List.map_map, ht]
  congr 1
  · simp
  · apply List.map_congr_left
    intro k _
    apply BitVec.eq_of_toNat_eq
    have e1 : (1 : Addr).toNat = 1 := rfl
    simp only [Function.comp, BitVec.toNat_add, BitVec.toNat_ofNat, e1]
    omega

/-- While they stay inside the memory, the addresses from the cursor on are what their numbers say. -/
theorem lowAddr_cursorAddrs {s : State} {n : Nat} (h : (cursor s).toNat + n ≤ spaceSize) :
    (cursorAddrs s n).map lowAddr = (List.range n).map (fun k => (cursor s).toNat + k) := by
  simp only [cursorAddrs, List.map_map]
  apply List.map_congr_left
  intro k hk
  rw [List.mem_range] at hk
  simp only [spaceSize] at h
  simp only [Function.comp, lowAddr, spaceSize, BitVec.toNat_add, BitVec.toNat_ofNat]
  omega

/-! ### Receiving -/

/-- One received byte changes CUR, REMAIN, MEM, HIST and the count of free bytes only. -/
theorem receiveByte_state (b : Byte) (s : State) :
    receiveByte b s = { s with
      curH := (advance s).curH, curL := (advance s).curL, remain := s.remain - 1
      mem := s.mem.write (lowAddr (cursor s)) (storedByte s (cursor s) b)
      hist := .wr (cursor s) b :: s.hist, drawn := (afterDraw s (cursor s)).drawn } := by
  simp only [receiveByte, memWrite_state, advance_update]

/-- The bytes of a list received one after the other. -/
def receiveAll (bs : List Byte) (s : State) : State := bs.foldl (fun x b => receiveByte b x) s

theorem receiveAll_cons (b : Byte) (bs : List Byte) (s : State) :
    receiveAll (b :: bs) s = receiveAll bs (receiveByte b s) := rfl

/-- The receive loop takes REMAIN bytes, or all there are, and leaves the rest in IN. -/
theorem receiveBytes_eq (bs : List Byte) (s : State) :
    receiveBytes bs s = { receiveAll (bs.take s.remain.toNat) s with inWin := bs.drop s.remain.toNat } := by
  induction bs generalizing s with
  | nil => simp [receiveBytes, receiveAll]
  | cons b bs ih =>
    by_cases h : s.remain = 0
    · simp [receiveBytes, h, receiveAll]
    · obtain ⟨n, hn⟩ : ∃ n, s.remain.toNat = n + 1 :=
        Nat.exists_eq_succ_of_ne_zero (fun e => h (BitVec.eq_of_toNat_eq e))
      have hr : (receiveByte b s).remain.toNat = n := by
        have e1 : (1 : Count).toNat = 1 := rfl
        have := s.remain.isLt
        rw [receiveByte_state]
        simp only [BitVec.toNat_sub, e1]
        omega
      simp only [receiveBytes, h, if_false, ih, hn, hr, List.take_succ_cons, List.drop_succ_cons, receiveAll_cons]

/-- Received bytes change CUR, REMAIN, MEM, HIST and the count of free bytes only, and HIST only by writes. -/
theorem receiveAll_state (bs : List Byte) (s : State) :
    ∃ ws : List (Addr × Byte), receiveAll bs s = { s with
      curH := (receiveAll bs s).curH, curL := (receiveAll bs s).curL, remain := (receiveAll bs s).remain
      mem := (receiveAll bs s).mem, hist := writeEvents ws ++ s.hist, drawn := (receiveAll bs s).drawn } := by
  induction bs generalizing s with
  | nil => exact ⟨[], rfl⟩
  | cons b bs ih =>
    obtain ⟨ws, e⟩ := ih (receiveByte b s)
    refine ⟨(cursor s, b) :: ws, ?_⟩
    rw [receiveAll_cons, e, receiveByte_state]
    simp [writeEvents]

theorem receiveAll_wf (bs : List Byte) {s : State} (h : s.mem.wf = true) : (receiveAll bs s).mem.wf = true := by
  induction bs generalizing s with
  | nil => exact h
  | cons b bs ih =>
    rw [receiveAll_cons]
    apply ih
    rw [receiveByte_state]
    exact Memory.wf_write _ (lowAddr_lt _) h

/-- Received bytes inside the memory: each is written at the cursor, in order. -/
theorem receiveAll_inside {bs : List Byte} {s : State} (h : (cursor s).toNat + bs.length ≤ spaceSize) :
    (cursor (receiveAll bs s)).toNat = (cursor s).toNat + bs.length ∧
    receiveAll bs s = { s with
      curH := (receiveAll bs s).curH, curL := (receiveAll bs s).curL
      remain := s.remain - BitVec.ofNat 16 bs.length
      mem := s.mem.writeAll ((cursorAddrs s bs.length).zip bs)
      hist := writeEvents ((cursorAddrs s bs.length).zip bs) ++ s.hist } := by
  induction bs generalizing s with
  | nil => simp [receiveAll, cursorAddrs, writeEvents, Memory.writeAll]
  | cons b bs ih =>
    simp only [List.length_cons, spaceSize] at h
    have hlt : (cursor s).toNat < spaceSize := by simp only [spaceSize]; omega
    have hpl : PlainBus s (cursor s) := .inl hlt
    have hc : cursor (receiveByte b s) = cursor s + 1 := by
      rw [← cursor_advance_of_lt (by omega), receiveByte_state]; rfl
    have hn : (cursor (receiveByte b s)).toNat = (cursor s).toNat + 1 := by
      rw [← advance_toNat (by omega), receiveByte_state]; rfl
    obtain ⟨h1, h2⟩ := ih (s := receiveByte b s) (by rw [hn, spaceSize]; omega)
    refine ⟨by rw [receiveAll_cons, h1, hn, List.length_cons]; omega, ?_⟩
    rw [receiveAll_cons, List.length_cons, cursorAddrs_succ hc]
    rw [h2]
    have hrem : s.remain - 1 - BitVec.ofNat 16 bs.length = s.remain - BitVec.ofNat 16 (bs.length + 1) := by
      apply BitVec.eq_of_toNat_eq
      have e1 : (1 : Count).toNat = 1 := rfl
      have := s.remain.isLt
      simp only [BitVec.toNat_sub, BitVec.toNat_ofNat, e1]
      omega
    rw [receiveByte_state, storedByte_plain b hpl, afterDraw_plain hpl]
    simp only [writeEvents, Memory.writeAll, List.zip_cons_cons, List.map_cons, List.reverse_cons, List.append_assoc,
      List.singleton_append, cursorAddrs, cursor, hrem]

/-! ### Transmitting -/

/-- The transmit loop changes CUR, HIST and the count of free bytes only. -/
theorem transmitBytes_state (n : Nat) (s : State) :
    ∃ as : List Addr, (transmitBytes n s).2 = { s with
      curH := (transmitBytes n s).2.curH, curL := (transmitBytes n s).2.curL
      hist := readEvents as (transmitBytes n s).1 ++ s.hist, drawn := (transmitBytes n s).2.drawn } ∧
      (transmitBytes n s).1.length = n ∧ as.length = n := by
  induction n generalizing s with
  | zero => exact ⟨[], rfl, rfl, rfl⟩
  | succ n ih =>
    obtain ⟨as, e, hl, ha⟩ := ih (advance (memRead s (cursor s)).2)
    refine ⟨cursor s :: as, ?_, by simp [transmitBytes, hl], by simp [ha]⟩
    simp only [transmitBytes]
    rw [e, advance_update, memRead_state]
    simp [readEvents, memRead]

/-- The transmit loop inside the memory: it reads the bytes from the cursor on, in order. -/
theorem transmitBytes_inside {n : Nat} {s : State} (h : (cursor s).toNat + n ≤ spaceSize) :
    (cursor (transmitBytes n s).2).toNat = (cursor s).toNat + n ∧
    (transmitBytes n s).1 = bytesAt s.mem (cursorAddrs s n) ∧
    (transmitBytes n s).2 = { s with
      curH := (transmitBytes n s).2.curH, curL := (transmitBytes n s).2.curL
      hist := readEvents (cursorAddrs s n) (bytesAt s.mem (cursorAddrs s n)) ++ s.hist } := by
  induction n generalizing s with
  | zero => exact ⟨rfl, rfl, rfl⟩
  | succ n ih =>
    simp only [spaceSize] at h
    have hlt : (cursor s).toNat < spaceSize := by simp only [spaceSize]; omega
    have hm := memRead_plain (s := s) (a := cursor s) (.inl hlt)
    have hc : cursor (advance (memRead s (cursor s)).2) = cursor s + 1 := by
      rw [cursor_advance_of_lt (by rw [hm]; exact (show (cursor s).toNat < 65535 by omega)), hm]; rfl
    have hn : (cursor (advance (memRead s (cursor s)).2)).toNat = (cursor s).toNat + 1 := by
      rw [advance_toNat (by rw [hm]; exact (show (cursor s).toNat < 65535 by omega)), hm]; rfl
    obtain ⟨h1, h2, h3⟩ := ih (s := advance (memRead s (cursor s)).2) (by rw [hn, spaceSize]; omega)
    have hmem : (advance (memRead s (cursor s)).2).mem = s.mem := by rw [advance_update, hm]
    have hhist : (advance (memRead s (cursor s)).2).hist = .rd (cursor s) (s.mem.read (lowAddr (cursor s))) :: s.hist := by
      rw [advance_update, hm]
    rw [hmem] at h2
    refine ⟨by simp only [transmitBytes]; rw [h1, hn]; omega, ?_, ?_⟩
    · simp only [transmitBytes]
      rw [h2, cursorAddrs_succ hc, hm]; rfl
    · simp only [transmitBytes]
      rw [h3, hmem, hhist, cursorAddrs_succ hc, advance_update, hm]
      simp [readEvents, bytesAt]

end Sys2Proof.Machine
end

