-- ==== Sys2Proof/Laws/History.lean ====
section
/-! SUPPORT. The order of bus events (R67): rows of reads and of writes under their configuration. -/

namespace Sys2Proof.Machine

theorem mem_readEvents {as : List Addr} {vs : List Byte} {e : BusEvent} (h : e ∈ readEvents as vs) :
    ∃ a v, e = .rd a v := by
  simp only [readEvents, List.mem_reverse] at h
  induction as generalizing vs with
  | nil => simp at h
  | cons a as ih =>
    cases vs with
    | nil => simp at h
    | cons v vs =>
      rw [List.zipWith_cons_cons, List.mem_cons] at h
      exact h.elim (fun e => ⟨a, v, e⟩) ih

theorem mem_writeEvents {ws : List (Addr × Byte)} {e : BusEvent} (h : e ∈ writeEvents ws) : ∃ a v, e = .wr a v := by
  simp only [writeEvents, List.mem_reverse, List.mem_map] at h
  obtain ⟨w, -, rfl⟩ := h
  exact ⟨w.1, w.2, rfl⟩

/-- Accesses leave the bus configuration alone. -/
theorem lastCfg_append {es h : List BusEvent} (he : ∀ e ∈ es, e.isAccess = true) : lastCfg (es ++ h) = lastCfg h := by
  induction es with
  | nil => rfl
  | cons e es ih =>
    have h1 := he e (by simp)
    have h2 := ih (fun x hx => he x (by simp [hx]))
    cases e with
    | cfg c => cases h1
    | lines l => cases h1
    | rd a v => exact h2
    | wr a v => exact h2

theorem lastCfg_readEvents (as : List Addr) (vs : List Byte) (h : List BusEvent) :
    lastCfg (readEvents as vs ++ h) = lastCfg h :=
  lastCfg_append (fun e he => by obtain ⟨a, v, rfl⟩ := mem_readEvents he; rfl)

theorem lastCfg_writeEvents (ws : List (Addr × Byte)) (h : List BusEvent) :
    lastCfg (writeEvents ws ++ h) = lastCfg h :=
  lastCfg_append (fun e he => by obtain ⟨a, v, rfl⟩ := mem_writeEvents he; rfl)

/-- Reads under Cfg(Read) keep a history in order. -/
theorem busOrdered_readEvents {as : List Addr} {vs : List Byte} {h : List BusEvent} (hc : lastCfg h = .read)
    (ho : busOrdered h = true) : busOrdered (readEvents as vs ++ h) = true := by
  have key : ∀ es : List BusEvent, (∀ e ∈ es, ∃ a v, e = .rd a v) → busOrdered (es ++ h) = true := by
    intro es hes
    induction es with
    | nil => exact ho
    | cons e es ih =>
      obtain ⟨a, v, rfl⟩ := hes e (by simp)
      have hes' : ∀ x ∈ es, ∃ a v, x = .rd a v := fun x hx => hes x (by simp [hx])
      have hl : lastCfg (es ++ h) = .read :=
        (lastCfg_append (fun x hx => by obtain ⟨a, v, rfl⟩ := hes' x hx; rfl)).trans hc
      simp [busOrdered, hl, ih hes']
  exact key _ (fun e he => mem_readEvents he)

/-- Writes under Cfg(Write) keep a history in order. -/
theorem busOrdered_writeEvents {ws : List (Addr × Byte)} {h : List BusEvent} (hc : lastCfg h = .write)
    (ho : busOrdered h = true) : busOrdered (writeEvents ws ++ h) = true := by
  have key : ∀ es : List BusEvent, (∀ e ∈ es, ∃ a v, e = .wr a v) → busOrdered (es ++ h) = true := by
    intro es hes
    induction es with
    | nil => exact ho
    | cons e es ih =>
      obtain ⟨a, v, rfl⟩ := hes e (by simp)
      have hes' : ∀ x ∈ es, ∃ a v, x = .wr a v := fun x hx => hes x (by simp [hx])
      have hl : lastCfg (es ++ h) = .write :=
        (lastCfg_append (fun x hx => by obtain ⟨a, v, rfl⟩ := hes' x hx; rfl)).trans hc
      simp [busOrdered, hl, ih hes']
  exact key _ (fun e he => mem_writeEvents he)

end Sys2Proof.Machine
end

