-- ==== Sys2Proof/Laws/Step.lean ====
section
/-! SUPPORT. What each part of an iteration can do: the events before it, the checks, the command step, the
environment; and the step put together. -/

namespace Sys2Proof.Machine

/-! ### Events -/

/-- Events write the latches and MEM only. -/
theorem applyEvent_state (e : EnvEvent) (s : State) :
    applyEvent e s = { s with rstLatch := (applyEvent e s).rstLatch, tickLatch := (applyEvent e s).tickLatch,
                              mem := (applyEvent e s).mem } := by
  cases e with
  | gbWrite a v => simp only [applyEvent]; split <;> rfl
  | _ => rfl

theorem applyEvents_state (es : List EnvEvent) (s : State) :
    applyEvents es s = { s with rstLatch := (applyEvents es s).rstLatch, tickLatch := (applyEvents es s).tickLatch,
                                mem := (applyEvents es s).mem } := by
  induction es generalizing s with
  | nil => rfl
  | cons e es ih =>
    simp only [applyEvents]
    rw [ih, applyEvent_state]

theorem applyEvents_append (es fs : List EnvEvent) (s : State) :
    applyEvents (es ++ fs) s = applyEvents fs (applyEvents es s) := by
  induction es generalizing s with
  | nil => rfl
  | cons e es ih => exact ih _

theorem applyEvents_wf (es : List EnvEvent) {s : State} (h : s.mem.wf = true) : (applyEvents es s).mem.wf = true := by
  induction es generalizing s with
  | nil => exact h
  | cons e es ih =>
    apply ih
    cases e with
    | gbWrite a v =>
      simp only [applyEvent]
      split
      · exact Memory.wf_write _ (by have := a.isLt; simp only [spaceSize]; omega) h
      · exact h
    | _ => exact h

/-- Before an iteration only the latches, MEM and the script change. -/
theorem startIteration_state (s : State) :
    startIteration s = { s with rstLatch := (startIteration s).rstLatch, tickLatch := (startIteration s).tickLatch,
                                mem := (startIteration s).mem, draws := s.draws.tail } := by
  rw [startIteration, applyEvents_state]

/-! ### The environment's part -/

/-- Refill leaves everything, or takes the host's next chunk into an empty IN. -/
theorem refillInbound_cases (b : Bool) (s : State) :
    refillInbound b s = s ∨ ∃ c cs, s.inWin = [] ∧ s.hostIn = c :: cs ∧ b = true ∧ chunkFits s c = true ∧
      refillInbound b s = { s with inWin := c, hostIn := cs } := by
  unfold refillInbound
  split
  · split
    · rename_i c cs h1 h2 h
      rw [Bool.and_eq_true] at h
      exact .inr ⟨c, cs, h1, h2, h.1, h.2, rfl⟩
    · exact .inl rfl
  · exact .inl rfl

theorem drainOutbound_cases (b : Bool) (s : State) :
    drainOutbound b s = s ∨ (b = true ∧ s.outWin ≠ [] ∧ drainOutbound b s =
      { s with hostOut := s.outWin.take s.cfg.chunkMax :: s.hostOut, outWin := s.outWin.drop s.cfg.chunkMax }) := by
  unfold drainOutbound
  split
  · rename_i h
    rw [Bool.and_eq_true, decide_eq_true_eq] at h
    exact .inr ⟨h.1, h.2, rfl⟩
  · exact .inl rfl

/-- The environment's part writes the windows and the host's fields only. -/
theorem environment_state (d : Draw) (s : State) :
    environment d s = { s with inWin := (environment d s).inWin, outWin := (environment d s).outWin,
                               hostIn := (environment d s).hostIn, hostOut := (environment d s).hostOut } := by
  unfold environment
  rcases refillInbound_cases d.chunkAvail s with e | ⟨c, cs, -, -, -, -, e⟩ <;>
    rcases drainOutbound_cases d.ready (refillInbound d.chunkAvail s) with f | ⟨-, -, f⟩ <;> rw [f, e]

/-- The environment's part leaves the windows within their sizes. -/
theorem environment_windows {d : Draw} {s : State} (h : WindowInv s) : WindowInv (environment d s) := by
  have hr : WindowInv (refillInbound d.chunkAvail s) := by
    rcases refillInbound_cases d.chunkAvail s with e | ⟨c, cs, -, -, -, hf, e⟩
    · rw [e]; exact h
    · rw [e]
      simp only [chunkFits, decide_eq_true_eq] at hf
      exact ⟨hf.2, h.2⟩
  unfold environment
  rcases drainOutbound_cases d.ready (refillInbound d.chunkAvail s) with f | ⟨-, -, f⟩
  · rw [f]; exact hr
  · rw [f]
    refine ⟨hr.1, ?_⟩
    simp only [List.length_drop]
    exact Nat.le_trans (Nat.sub_le _ _) hr.2

/-! ### The checks -/

/-- The watchdog check, once the tick has been cleared (R206). -/
theorem watchdogCheck_cleared (s : State) : watchdogCheck { s with tickLatch := false } =
    if (nextStall s).toNat > stallLimit then
      .resetTaken (takeCause .stall { s with tickLatch := false, stall := nextStall s })
    else .goOn { s with tickLatch := false, stall := nextStall s } := rfl

/-- Where no Reset is taken, a pending tick is counted and the mode step follows. -/
theorem seqPart_noReset {s : State} (h : NoReset s) : seqPart s = modeStep (ticked s) := by
  obtain ⟨hr, ht⟩ := h
  unfold seqPart checks ticked
  rw [if_neg (by simp [hr])]
  by_cases hk : s.tickLatch = true
  · rw [if_pos hk, if_pos hk, watchdogCheck_cleared, if_neg (Nat.not_lt.2 (ht hk))]
  · rw [if_neg hk, if_neg hk]

/-- A pending bus reset is taken, whatever else is pending. -/
theorem seqPart_busReset {s : State} (h : s.rstLatch = true) :
    seqPart s = .next (resetState { s with rstLatch := false }) := by
  unfold seqPart checks
  rw [if_pos h]; rfl

/-- A tick that brings STALL past the limit takes Reset. -/
theorem seqPart_stall {s : State} (hr : s.rstLatch = false) (ht : s.tickLatch = true)
    (h : stallLimit < (nextStall s).toNat) : seqPart s = .next (resetState { s with tickLatch := false }) := by
  unfold seqPart checks
  rw [if_neg (by simp [hr]), if_pos ht, watchdogCheck_cleared, if_pos h]
  rfl

/-- The sequencer's part is a Reset or a mode step. -/
theorem seqPart_cases (s : State) :
    (NoReset s ∧ seqPart s = modeStep (ticked s)) ∨
      (∃ r k, seqPart s = .next (resetState { s with rstLatch := r, tickLatch := k })) := by
  by_cases h : NoReset s
  · exact .inl ⟨h, seqPart_noReset h⟩
  · cases hr : s.rstLatch
    · have : s.tickLatch = true ∧ stallLimit < (nextStall s).toNat := by
        simp only [NoReset, hr, true_and] at h
        push Not at h
        exact h
      refine .inr ⟨false, false, ?_⟩
      rw [seqPart_stall hr this.1 this.2]
      simp [hr]
    · refine .inr ⟨false, s.tickLatch, seqPart_busReset hr⟩

/-- Counting a tick changes STALL and TICK_LATCH only. -/
theorem ticked_state (s : State) :
    ticked s = { s with tickLatch := (ticked s).tickLatch, stall := (ticked s).stall } := by
  unfold ticked; split <;> rfl

/-! ### The command step -/

/-- Feeding never gives back more bytes than it got. -/
theorem feed_rest_length (c : Codec) (d : DecState) (bs : List Byte) : (feed c d bs).rest.length ≤ bs.length := by
  induction bs generalizing d with
  | nil => simp [feed]
  | cons b bs ih =>
    rw [feed]
    split
    · simp
    · exact Nat.le_succ_of_le (ih _)

/-- A request is dispatched to a command or to the protocol error. -/
theorem dispatch_cases (r : Request) (s : State) :
    (∃ i, decodeRequest r = .ok i ∧ dispatch r s = exec i s) ∨
      (∃ e, decodeRequest r = .error e ∧ dispatch r s = takeCause (.protocol r.op) s) := by
  unfold dispatch
  cases h : decodeRequest r with
  | ok i => exact .inl ⟨i, rfl, rfl⟩
  | error e => exact .inr ⟨e, rfl, rfl⟩

/-- What a dispatched request that answers a next state has done. -/
theorem dispatch_next {r : Request} {s t : State} (h : dispatch r s = .next t) :
    s.outWin = [] ∧ t.outWin.length ≤ s.cfg.outCap ∧
      (t = { s with outWin := t.outWin } ∨
        ∃ i, decodeRequest r = .ok i ∧ (guardOf i ≠ none → s.flags.u = true ∧ s.flags.p = false) ∧
          t = answered (commandEffect i s) 0xFF (okPayload i s)) := by
  rcases dispatch_cases r s with ⟨i, hd, e⟩ | ⟨x, -, e⟩
  · rw [e] at h
    obtain ⟨ho, hl, h⟩ := exec_next h
    exact ⟨ho, hl, h.imp id (fun ⟨hg, _, _, ht⟩ => ⟨i, hd, hg, ht⟩)⟩
  · rw [e, takeCause_error rfl] at h
    obtain ⟨hcan, rfl⟩ := h
    exact ⟨hcan.1, hcan.2, .inl rfl⟩

/-- The command step waits, or only feeds, or feeds and dispatches. -/
theorem commandStep_cases (s : State) :
    (s.outWin ≠ [] ∧ commandStep s = .next s) ∨
      (s.outWin = [] ∧ (fedFrom s).req = none ∧ commandStep s = .next (afterFeed s)) ∨
      (s.outWin = [] ∧ ∃ r, (fedFrom s).req = some r ∧ commandStep s = dispatch r (afterFeed s)) := by
  unfold commandStep
  by_cases h : s.outWin = []
  · cases hr : (fedFrom s).req with
    | none => exact .inr (.inl ⟨h, rfl, by simp [h]⟩)
    | some r => exact .inr (.inr ⟨h, r, rfl, by simp [h]⟩)
  · exact .inl ⟨h, by simp [h]⟩

/-- The transmit step completes, waits, or installs one chunk. -/
theorem transmitStep_cases (s : State) :
    (s.remain = 0 ∧ transmitStep s = .next (completeStream s)) ∨
      (s.remain ≠ 0 ∧ s.outWin ≠ [] ∧ transmitStep s = .next s) ∨
      (s.remain ≠ 0 ∧ s.outWin = [] ∧
        transmitStep s = outInstall .chunkTooLong (transmitBytes (chunkLength s) s).1 (afterChunk s)) := by
  unfold transmitStep
  by_cases h : s.remain = 0
  · exact .inl ⟨h, if_pos h⟩
  · rw [if_neg h]
    by_cases ho : s.outWin = []
    · exact .inr (.inr ⟨h, ho, if_neg (fun e => e ho)⟩)
    · exact .inr (.inl ⟨h, ho, if_pos ho⟩)

/-! ### The step -/

theorem onNext_next {r : Result} {f : State → State} {t : State} :
    onNext r f = .next t ↔ ∃ s, r = .next s ∧ t = f s := by
  cases r <;> simp [onNext, eq_comm]

/-- A step that answers: the sequencer's part answers, and the environment's part follows. -/
theorem step_next {s t : State} :
    step s = .next t ↔ ∃ x, seqPart (startIteration s) = .next x ∧ t = environment (nextDraw s) x := onNext_next

end Sys2Proof.Machine
end

