-- ==== Sys2Proof/Laws/Modes.lean ====
section
/-! SUPPORT. What a mode step that answers has done (R102, R162, R164), one disjunct per way. -/

namespace Sys2Proof.Machine

/-- A receive step changes MODE, BUS_CFG, CUR, REMAIN, MEM, IN, HIST and the count of free bytes only; it takes
REMAIN bytes of IN, or all; it goes on with the stream, or completes it. -/
theorem receiveStep_cases (s : State) : ∃ ws : List (Addr × Byte),
    receiveStep s = { s with
      mode := (receiveStep s).mode, busCfg := (receiveStep s).busCfg, curH := (receiveStep s).curH
      curL := (receiveStep s).curL, remain := (receiveStep s).remain, mem := (receiveStep s).mem
      inWin := s.inWin.drop s.remain.toNat, hist := (receiveStep s).hist, drawn := (receiveStep s).drawn } ∧
    (((receiveStep s).mode = s.mode ∧ (receiveStep s).busCfg = s.busCfg ∧
        (receiveStep s).hist = writeEvents ws ++ s.hist ∧ (receiveStep s).remain ≠ 0) ∨
      ((receiveStep s).mode = .command ∧ (receiveStep s).busCfg = .idle ∧
        (receiveStep s).hist = .cfg .idle :: (writeEvents ws ++ s.hist))) := by
  obtain ⟨ws, e⟩ := receiveAll_state (s.inWin.take s.remain.toNat) s
  refine ⟨ws, ?_⟩
  unfold receiveStep
  simp only [receiveBytes_eq]
  generalize receiveAll (s.inWin.take s.remain.toNat) s = r at *
  split
  · rw [e]; exact ⟨rfl, .inr ⟨rfl, rfl, rfl⟩⟩
  · rename_i h; rw [e] at h ⊢; exact ⟨rfl, .inl ⟨rfl, rfl, rfl, h⟩⟩

/-- After the reads of a chunk: CUR, REMAIN, HIST and the count of free bytes have changed. -/
theorem afterChunk_state (s : State) : ∃ as : List Addr,
    afterChunk s = { s with
      curH := (afterChunk s).curH, curL := (afterChunk s).curL, remain := (afterChunk s).remain
      hist := readEvents as (transmitBytes (chunkLength s) s).1 ++ s.hist, drawn := (afterChunk s).drawn } := by
  obtain ⟨as, e, -⟩ := transmitBytes_state (chunkLength s) s
  refine ⟨as, ?_⟩
  simp only [afterChunk]; rw [e]

/-- A transmit step that answers has completed, waited, or installed one chunk within OUT_CAP. -/
theorem transmitStep_next {s t : State} (h : transmitStep s = .next t) :
    (s.remain = 0 ∧ t = completeStream s) ∨ (s.remain ≠ 0 ∧ t = s) ∨
      (s.remain ≠ 0 ∧ s.outWin = [] ∧ t.outWin.length ≤ s.cfg.outCap ∧ t = { afterChunk s with outWin := t.outWin } ∧
        t.outWin = (transmitBytes (chunkLength s) s).1) := by
  rcases transmitStep_cases s with ⟨hr, e⟩ | ⟨hr, _, e⟩ | ⟨hr, ho, e⟩
  · rw [e] at h; cases h; exact .inl ⟨hr, rfl⟩
  · rw [e] at h; cases h; exact .inr (.inl ⟨hr, rfl⟩)
  · rw [e, outInstall_next] at h
    obtain ⟨_, hl, rfl⟩ := h
    refine .inr (.inr ⟨hr, ho, ?_, rfl, rfl⟩)
    obtain ⟨as, e, -⟩ := transmitBytes_state (chunkLength s) s
    simp only [afterChunk] at hl
    rw [e] at hl; exact hl

/-- A mode step that answers, in Command mode: it waited, only fed the codec, answered with an error, or ran a
command whose guard held. In a stream: it was the stream's step. -/
theorem modeStep_next {s t : State} (h : modeStep s = .next t) :
    (s.mode = .command ∧
      (t = s ∨ t = afterFeed s ∨ (t = { afterFeed s with outWin := t.outWin } ∧ t.outWin.length ≤ s.cfg.outCap) ∨
        ∃ r i, (fedFrom s).req = some r ∧ decodeRequest r = .ok i ∧
          (guardOf i ≠ none → s.flags.u = true ∧ s.flags.p = false) ∧ t.outWin.length ≤ s.cfg.outCap ∧
          t = answered (commandEffect i (afterFeed s)) 0xFF (okPayload i (afterFeed s)))) ∨
    (s.mode = .receiveStream ∧ t = receiveStep s) ∨ (s.mode = .transmitStream ∧ transmitStep s = .next t) := by
  unfold modeStep at h
  cases hm : s.mode with
  | command =>
    rw [hm] at h
    refine .inl ⟨rfl, ?_⟩
    rcases commandStep_cases s with ⟨_, e⟩ | ⟨_, _, e⟩ | ⟨_, r, hr, e⟩
    · have h := e.symm.trans h; cases h; exact .inl rfl
    · have h := e.symm.trans h; cases h; exact .inr (.inl rfl)
    · obtain ⟨_, hl, e2 | ⟨i, hd, hg, e2⟩⟩ := dispatch_next (e.symm.trans h)
      · exact .inr (.inr (.inl ⟨e2, hl⟩))
      · exact .inr (.inr (.inr ⟨r, i, hr, hd, hg, hl, e2⟩))
  | receiveStream => rw [hm] at h; cases h; exact .inr (.inl ⟨rfl, rfl⟩)
  | transmitStream => rw [hm] at h; exact .inr (.inr ⟨rfl, h⟩)

end Sys2Proof.Machine
end

