-- ==== Sys2Proof/Laws/PerInstr.lean ====
section
/-! SUPPORT. One lemma per instruction about its request bytes: the opcode byte comes first, and a well-formed command
has a payload length that `admits` accepts (R71, R74, R77). -/

namespace Sys2Proof.Laws.EncodedShape

/-- The request bytes of a command: its opcode, then a payload, of an admitted length if it is well-formed. -/
def Statement (i : Instr) : Prop :=
  ∃ p : List Byte, encode i = opcode i :: p ∧ (i.wellFormed = true → admits (opcode i) p.length = true)

theorem ping (p : List Byte) : Statement (.ping p) := ⟨p, rfl, fun h => h⟩

theorem version : Statement .version := ⟨[], rfl, fun _ => rfl⟩

theorem status : Statement .status := ⟨[], rfl, fun _ => rfl⟩

theorem setUnlocked (b : Byte) : Statement (.setUnlocked b) := ⟨[b], rfl, fun _ => rfl⟩

theorem setPassthrough (b : Byte) : Statement (.setPassthrough b) := ⟨[b], rfl, fun _ => rfl⟩

theorem setReset (b : Byte) : Statement (.setReset b) := ⟨[b], rfl, fun _ => rfl⟩

theorem readBlock (h : Byte) : Statement (.readBlock h) := ⟨[h], rfl, fun _ => rfl⟩

theorem writeBlock (h : Byte) (data : List Byte) : Statement (.writeBlock h data) := by
  refine ⟨h :: data, rfl, fun hw => ?_⟩
  have hl : data.length = blockSize := by simpa [Instr.wellFormed] using hw
  simp [admits, opcode, hl, Nat.add_comm]

theorem rxStream : Statement .rxStream := ⟨[], rfl, fun _ => rfl⟩

theorem txStream : Statement .txStream := ⟨[], rfl, fun _ => rfl⟩

end Sys2Proof.Laws.EncodedShape
end

