-- ==== Sys2Proof/Tests/Slice0.lean ====
section
/-! SUPPORT. Tests on small states, with the results that spec/95_test_vectors.md and the rules give, and a witness for
the hypotheses of each statement. -/

namespace Sys2Proof.Tests

open Sys2Proof Sys2Proof.Machine

/-! ### Helpers -/

/-- What a test looks at in a next state. -/
def look {α : Type} (r : Result) (f : State → α) : Option α :=
  match r with
  | .next t    => some (f t)
  | .fault _   => none
  | .refused _ => none

/-- The result is a next state that passes. -/
def passes (r : Result) (p : State → Bool) : Bool := (look r p).getD false

theorem exists_of_passes {r : Result} {p : State → Bool} (h : passes r p = true) : ∃ t, r = .next t ∧ p t = true := by
  cases r with
  | next t => exact ⟨t, rfl, h⟩
  | fault e => cases h
  | refused e => cases h

/-- Boot (S0 of the vectors), with an encoder that adds no frame, so that OUT is the status and the payload. -/
def s0 : State := { State.reset with cfg := { resetConfig with codec := .rows .idle [] [] } }

/-- SU: unlocked. -/
def sU : State := { s0 with flags := ⟨true, false, false⟩ }

/-- SP: in passthrough, locked. -/
def sP : State := { s0 with flags := ⟨false, true, false⟩, lines := ⟨false, true, false⟩ }

/-- SUP: in passthrough, unlocked. -/
def sUP : State := { sP with flags := ⟨true, true, false⟩ }

/-- SU under the other values of two parameters: `Bit0` and `Alias`. -/
def sAlt : State := { sU with cfg := { sU.cfg with boolDecode := .bit0, extHigh := .mirror } }

/-- The bytes 0 to 255. -/
def ramp : List Byte := (List.range 256).map (BitVec.ofNat 8)

/-- A receive stream at a cursor, as R41 says: REMAIN is 32768 less the cursor. -/
def rxAt (cur : Nat) (bytes : List Byte) : State :=
  { sU with mode := .receiveStream, busCfg := .write, curH := BitVec.ofNat 8 (cur / 256), curL := BitVec.ofNat 8 cur,
            remain := BitVec.ofNat 16 (32768 - cur), inWin := bytes }

/-- A transmit stream at a cursor. -/
def txAt (cur : Nat) (bytes : List Byte) : State :=
  { sU with mode := .transmitStream, busCfg := .read, curH := BitVec.ofNat 8 (cur / 256), curL := BitVec.ofNat 8 cur,
            remain := BitVec.ofNat 16 (32768 - cur), outWin := bytes }

/-- A machine with the reference framing whose host has sent bytes into IN. -/
def sent (s : State) (bytes : List Byte) : State := { s with cfg := resetConfig, inWin := bytes, draws := [quietDraw] }

/-! ### Well-formedness -/

theorem test_ping_of_eight_is_wellFormed : (Instr.ping (List.replicate 8 0)).wellFormed = true := by decide
theorem test_ping_of_nine_is_refused : (Instr.ping (List.replicate 9 0)).wellFormed = false := by decide
theorem test_write_block_of_255_is_refused : (Instr.writeBlock 5 (List.replicate 255 0)).wellFormed = false := by
  decide +kernel
theorem test_write_block_of_257_is_refused : (Instr.writeBlock 5 (List.replicate 257 0)).wellFormed = false := by
  decide +kernel

/-! ### Decoding: requests written out from R71 and the map of R74 -/

theorem test_decode_info_family :
    decode [0b00000001, 0xDE, 0xAD] = .ok (.ping [0xDE, 0xAD]) ∧ decode [0b00000010] = .ok .version ∧
      decode [0b00000011] = .ok .status := by decide
theorem test_decode_flag_family :
    decode [0b00000100, 0x01] = .ok (.setUnlocked 1) ∧ decode [0b00000101, 0xFE] = .ok (.setPassthrough 0xFE) ∧
      decode [0b00000110, 0x00] = .ok (.setReset 0) := by decide
theorem test_decode_block_family :
    decode [0b00000111, 0x7F] = .ok (.readBlock 0x7F) ∧ decode (0b00001000 :: 0x05 :: ramp) = .ok (.writeBlock 5 ramp) := by
  decide +kernel
theorem test_decode_stream_family : decode [0b00001001] = .ok .rxStream ∧ decode [0b00001010] = .ok .txStream := by decide

/-- V1 to V14: opcodes outside the map, and every recognized opcode with a wrong length. -/
theorem test_decode_refuses :
    decode [0x00] = .error (.unrecognized 0x00) ∧ decode [0x0B] = .error (.unrecognized 0x0B) ∧
    decode [0xFF, 1, 2] = .error (.unrecognized 0xFF) ∧ decode [] = .error .noOpcode ∧
    decode [0x01, 0, 1, 2, 3, 4, 5, 6, 7, 8] = .error (.wrongLength 0x01) ∧ decode [0x02, 0] = .error (.wrongLength 0x02) ∧
    decode [0x03, 0] = .error (.wrongLength 0x03) ∧ decode [0x04] = .error (.wrongLength 0x04) ∧
    decode [0x05, 1, 1] = .error (.wrongLength 0x05) ∧ decode [0x06] = .error (.wrongLength 0x06) ∧
    decode [0x07] = .error (.wrongLength 0x07) ∧ decode (0x08 :: List.replicate 256 0) = .error (.wrongLength 0x08) ∧
    decode (0x08 :: List.replicate 258 0) = .error (.wrongLength 0x08) ∧ decode [0x09, 0] = .error (.wrongLength 0x09) ∧
    decode [0x0A, 0] = .error (.wrongLength 0x0A) := by decide +kernel

/-- Every row of the opcode table is read as its instruction. -/
theorem test_table_rows_decode :
    [1, 2, 3, 4, 5, 6, 7, 8, 9, 10].map (decodeTableWord 8) =
      [.ping [], .version, .status, .setUnlocked 0, .setPassthrough 0, .setReset 0, .readBlock 0,
       .writeBlock 0 (List.replicate 256 0), .rxStream, .txStream].map some := by decide +kernel

/-! ### Reset -/

/-- The text parameters of State.reset meet R113. -/
theorem test_reset_texts_are_distinct : TextsDistinct resetConfig := by
  refine ⟨by decide +kernel, by decide +kernel, ?_⟩
  intro t ht op e
  have hl : t.length = 25 := by rw [e]; rfl
  have hs : ∀ x ∈ policyTexts resetConfig, x.length ≠ 25 := by decide +kernel
  exact hs t ht hl

theorem test_reset_memory_is_canonical : Memory.wf State.reset.mem = true := by decide

/-- OUT_CAP of State.reset holds every response and a chunk. -/
theorem test_reset_config_fits : ConfigFits resetConfig := by
  refine ⟨by decide, fun st q h => ?_⟩
  have hq : q.length ≤ 256 := by
    rcases h with h | h
    · exact h
    · have hs : ∀ x ∈ policyTexts resetConfig, x.length ≤ 256 := by decide +kernel
      exact hs q h
  show (lenBytes q.length ++ st :: q).length ≤ 512
  simp only [lenBytes, List.length_append, List.length_cons, List.length_nil]
  omega

theorem test_reset_meets_the_invariant_parts :
    State.reset.busCfg = .idle ∧ State.reset.stall = 0 ∧ busOrdered State.reset.hist = true := by decide

/-! ### Information commands -/

/-- V21. -/
theorem test_ping_echoes_two_bytes : look (exec (.ping [0xDE, 0xAD]) s0) State.outWin = some [0xFF, 0xDE, 0xAD] := by decide
/-- V22, in passthrough and locked (V23). -/
theorem test_ping_echoes_eight_bytes :
    look (exec (.ping [0, 0x11, 0x22, 0x33, 0x44, 0x55, 0x66, 0x77]) sP) State.outWin =
      some [0xFF, 0, 0x11, 0x22, 0x33, 0x44, 0x55, 0x66, 0x77] := by decide
/-- V24. -/
theorem test_version : look (exec .version s0) State.outWin = some [0xFF, 0x02, 0x01] := by decide
/-- V26. -/
theorem test_status_in_passthrough : look (exec .status sUP) State.outWin = some [0xFF, 1, 1, 0] := by decide
/-- V27. -/
theorem test_status_with_reset_line :
    look (exec .status { sU with flags := ⟨true, false, true⟩ }) State.outWin = some [0xFF, 1, 0, 1] := by decide

/-! ### Flag commands -/

/-- V32 under NonZero. -/
theorem test_set_unlocked_nonZero : look (exec (.setUnlocked 2) s0) (fun t => (t.flags.u, t.outWin, t.hist)) =
    some (true, [0xFF], []) := by decide
/-- V34 under Bit0. -/
theorem test_set_unlocked_bit0 : look (exec (.setUnlocked 0xFE) sAlt) (fun t => t.flags.u) = some false := by decide
/-- V35. -/
theorem test_set_passthrough_enters : look (exec (.setPassthrough 1) s0) (fun t => (t.flags.p, linesBits t.lines, t.hist)) =
    some (true, 0b010, [.lines ⟨false, true, false⟩]) := by decide
/-- V36. -/
theorem test_set_passthrough_leaves : look (exec (.setPassthrough 0) sP) (fun t => (t.flags.p, linesBits t.lines, t.hist)) =
    some (false, 0b001, [.lines ⟨true, false, false⟩]) := by decide
/-- V38. -/
theorem test_set_reset : look (exec (.setReset 1) s0) (fun t => (flagsBits t.flags, linesBits t.lines)) =
    some (0b100, 0b100) := by decide
/-- V39. -/
theorem test_set_reset_keeps_lines : look (exec (.setReset 1) sP) (fun t => (flagsBits t.flags, linesBits t.lines)) =
    some (0b110, 0b110) := by decide

/-! ### Block commands -/

/-- V50: the block's bytes, 258 events of which the last is Cfg(Idle). -/
theorem test_read_block_of_ramp :
    look (exec (.readBlock 5) { sU with mem := (List.range 255).map (fun k => (0x501 + k, BitVec.ofNat 8 (k + 1))) })
      (fun t => (t.outWin, t.hist.length, t.hist.take 2, t.busCfg)) =
    some (0xFF :: ramp, 258, [.cfg .idle, .rd 0x05FF 0xFF], .idle) := by decide +kernel
/-- V45: locked, the message of log entry 5, and nothing else. -/
theorem test_read_block_locked :
    look (exec (.readBlock 5) s0) (fun t => (t.outWin, t.hist)) =
      some ([0xFE, 0x4C, 0x6F, 0x63, 0x6B, 0x65, 0x64, 0x3A, 0x20, 0x30, 0x37], []) := by decide
/-- V54. -/
theorem test_write_block_of_ramp :
    look (exec (.writeBlock 5 ramp) sU) (fun t => (t.outWin, t.mem, t.hist.length, t.hist.take 2)) =
      some ([0xFF], (List.range 255).map (fun k => (0x501 + k, BitVec.ofNat 8 (k + 1))), 258,
        [.cfg .idle, .wr 0x05FF 0xFF]) := by decide +kernel
/-- V55 under `Alias`. -/
theorem test_write_block_mirrored :
    look (exec (.writeBlock 0x85 ramp) sAlt) (fun t => (t.mem.read 0x0507, t.mem.length)) = some (7, 255) := by
  decide +kernel

/-! ### Streams -/

/-- V60. -/
theorem test_rx_stream : look (exec .rxStream sU) (fun t => (t.outWin, modeCode t.mode, cursor t, t.remain, t.hist)) =
    some ([0xFF], 1, 0, 32768, [.cfg .write]) := by decide
/-- V61. -/
theorem test_tx_stream : look (exec .txStream sU) (fun t => (t.outWin, modeCode t.mode, cursor t, t.remain, busCfgCode t.busCfg)) =
    some ([0xFF], 2, 0, 32768, 1) := by decide
/-- V62. -/
theorem test_receive_step : look (modeStep (rxAt 0x00FF [0xAA, 0xBB]))
      (fun t => (t.mem, cursor t, t.remain, t.inWin)) =
    some ([(0x00FF, 0xAA), (0x0100, 0xBB)], 0x0101, 32511, []) := by decide +kernel
/-- V63. -/
theorem test_receive_step_completes : look (modeStep (rxAt 0x7FFE [0x11, 0x22, 0x02]))
      (fun t => (t.mem, cursor t, t.remain, t.inWin, decide (t.mode = .command ∧ t.busCfg = .idle))) =
    some ([(0x7FFE, 0x11), (0x7FFF, 0x22)], 0x8000, 0, [0x02], true) := by decide +kernel
/-- V65. -/
theorem test_transmit_step : look (modeStep { txAt 0 [] with mem := [(0, 0xA0), (0x3F, 0xA1), (0x40, 0xA2)] })
      (fun t => (t.outWin, cursor t, t.remain, t.hist.length)) =
    some (0xA0 :: (List.replicate 62 0 ++ [0xA1]), 0x0040, 32704, 64) := by decide +kernel
/-- V67. -/
theorem test_transmit_step_completes : look (modeStep (txAt 0x8000 [0x77])) (fun t => (t.outWin, t.mode, t.busCfg)) =
    some ([0x77], .command, .idle) := by decide +kernel

/-! ### Iterations -/

/-- V2: the 26 bytes, framed. -/
theorem test_step_protocol_error :
    look (step (sent sU [0, 0, 0x0B])) State.outWin =
      some [0, 25, 0xFE, 0x55, 0x6E, 0x73, 0x75, 0x70, 0x70, 0x6F, 0x72, 0x74, 0x65, 0x64, 0x20, 0x63, 0x6F, 0x6D, 0x6D,
        0x61, 0x6E, 0x64, 0x3A, 0x20, 0x30, 0x78, 0x30, 0x42] := by decide +kernel
/-- V17: of two requests in one chunk, one is dispatched. -/
theorem test_step_dispatches_one :
    look (step (sent sU [0, 0, 2, 0, 0, 3])) (fun t => (t.outWin, t.inWin)) = some ([0, 2, 0xFF, 2, 1], [0, 0, 3]) := by
  decide +kernel
/-- V15: a wrong length is seen before the lock. -/
theorem test_step_length_before_lock :
    look (step (sent s0 [0, 2, 7, 5, 5])) (fun t => t.outWin.drop 26) = some [0x30, 0x37] := by decide +kernel
/-- V70: the bytes after rx_stream in the same chunk are data. -/
theorem test_step_data_after_rx_stream :
    look (runSteps 2 { sent sU [0, 0, 9, 0xA1, 0xA2, 0xA3] with draws := [quietDraw, quietDraw] })
      (fun t => (t.mem, cursor t, t.remain)) = some ([(0, 0xA1), (1, 0xA2), (2, 0xA3)], 3, 32765) := by decide +kernel
/-- V82: the 1001st stalled tick. -/
theorem test_step_watchdog_reset :
    look (step { sU with outWin := [0xFF, 1, 0, 0], stall := 1000, tickLatch := true, draws := [quietDraw] })
      (fun t => (t.outWin, flagsBits t.flags, t.stall, t.hist)) =
    some ([], 0, 0, [.lines ⟨false, false, false⟩, .cfg .idle]) := by decide
/-- V91: a bus reset leaves the tick pending. -/
theorem test_step_bus_reset_keeps_tick :
    look (step { s0 with draws := [⟨[.busReset, .tick], false, false⟩] }) (fun t => (t.rstLatch, t.tickLatch)) =
      some (false, true) := by decide
/-- The request of a table word is fetched and run by the next step. -/
theorem test_step_runs_placed_word :
    look (step (State.reset.withFetchWord 16 0x0104)) (fun t => (t.flags.u, t.outWin)) = some (true, [0, 0, 0xFF]) := by
  decide +kernel

/-! ### Witnesses: the hypotheses of every statement can be met -/

theorem witness_PingEchoesItsPayload :
    ([1, 2, 3, 4, 5, 6, 7, 8] : List Byte).length ≤ 8 ∧ CanRespond sP 0xFF [1, 2, 3, 4, 5, 6, 7, 8] ∧
    9 ≤ ([1, 2, 3, 4, 5, 6, 7, 8, 9] : List Byte).length ∧ CanRespond sP 0xFE (protocolText 0x01) := by
  unfold CanRespond; decide +kernel
theorem witness_VersionReportsMajorThenMinor : CanRespond s0 0xFF [0x02, 0x01] := by unfold CanRespond; decide
theorem witness_StatusReportsTheFlags :
    ([1, 1, 0] : List Byte) = [if sUP.flags.u then 0x01 else 0x00, if sUP.flags.p then 0x01 else 0x00,
      if sUP.flags.r then 0x01 else 0x00] ∧ CanRespond sUP 0xFF [1, 1, 0] := by unfold CanRespond; decide
/-- The hypotheses on a flag byte, at a value on which the two decodings differ. -/
theorem witness_flag_byte :
    (s0.cfg.boolDecode = .nonZero → (true = true ↔ (2 : Byte) ≠ 0x00)) ∧
    (s0.cfg.boolDecode = .bit0 → true = (2 : Byte).getLsbD 0) ∧
    (sAlt.cfg.boolDecode = .nonZero → (false = true ↔ (2 : Byte) ≠ 0x00)) ∧
    (sAlt.cfg.boolDecode = .bit0 → false = (2 : Byte).getLsbD 0) := by decide
theorem witness_SetUnlockedWritesU : CanRespond s0 0xFF [] ∧ CanRespond sAlt 0xFF [] := by unfold CanRespond; decide
theorem witness_SetPassthroughWritesPAndLines :
    (true = true → s0.cfg.ptLines.enter = s0.cfg.ptLines.enter) ∧ (true = false → s0.cfg.ptLines.enter = s0.cfg.ptLines.leave) ∧
    (s0.cfg.boolDecode = .nonZero → (true = true ↔ (1 : Byte) ≠ 0x00)) ∧
    (s0.cfg.boolDecode = .bit0 → true = (1 : Byte).getLsbD 0) ∧ CanRespond s0 0xFF [] := by unfold CanRespond; decide
theorem witness_SetPassthroughWritesPAndLines_leaving :
    (false = true → sP.cfg.ptLines.leave = sP.cfg.ptLines.enter) ∧ (false = false → sP.cfg.ptLines.leave = sP.cfg.ptLines.leave) ∧
    (sP.cfg.boolDecode = .nonZero → (false = true ↔ (0 : Byte) ≠ 0x00)) ∧
    (sP.cfg.boolDecode = .bit0 → false = (0 : Byte).getLsbD 0) ∧ CanRespond sP 0xFF [] := by unfold CanRespond; decide
theorem witness_SetResetWritesRAndLine :
    (sP.cfg.boolDecode = .nonZero → (true = true ↔ (0xFF : Byte) ≠ 0x00)) ∧
    (sP.cfg.boolDecode = .bit0 → true = (0xFF : Byte).getLsbD 0) ∧ CanRespond sP 0xFF [] := by unfold CanRespond; decide
theorem witness_ReadBlockReturnsTheBlock :
    sU.flags.u = true ∧ sU.flags.p = false ∧ ((0x7F : Byte).toNat < 128 ∨ sU.cfg.extHigh = .mirror) ∧
    List.replicate 256 0 = (List.range 256).map (fun o => sU.mem.read (256 * ((0x7F : Byte).toNat % 128) + o)) ∧
    CanRespond sU 0xFF (List.replicate 256 0) := by unfold CanRespond; decide +kernel
theorem witness_ReadBlockReturnsTheBlock_mirror :
    sAlt.flags.u = true ∧ sAlt.flags.p = false ∧ ((0x80 : Byte).toNat < 128 ∨ sAlt.cfg.extHigh = .mirror) ∧
    List.replicate 256 0 = (List.range 256).map (fun o => sAlt.mem.read (256 * ((0x80 : Byte).toNat % 128) + o)) ∧
    CanRespond sAlt 0xFF (List.replicate 256 0) := by unfold CanRespond; decide +kernel
theorem witness_ReadBlockAboveTheSpaceDraws :
    ∃ d : List Byte, sU.flags.u = true ∧ sU.flags.p = false ∧ 128 ≤ (0x80 : Byte).toNat ∧ sU.cfg.extHigh = .draw ∧
      d = (List.range 256).map (fun o => Config.freeByte (sU.drawn + o)) ∧ CanRespond sU 0xFF d :=
  ⟨_, rfl, rfl, by decide, rfl, rfl, rfl, by decide +kernel⟩
theorem witness_WriteBlockStoresTheBlock :
    sU.flags.u = true ∧ sU.flags.p = false ∧ ((0x00 : Byte).toNat < 128 ∨ sU.cfg.extHigh = .mirror) ∧ ramp.length = 256 ∧
    CanRespond sU 0xFF [] ∧ sAlt.flags.u = true ∧ sAlt.flags.p = false ∧
    ((0xFF : Byte).toNat < 128 ∨ sAlt.cfg.extHigh = .mirror) ∧ CanRespond sAlt 0xFF [] := by
  unfold CanRespond; decide +kernel
theorem witness_WriteBlockAboveTheSpaceDraws :
    sU.flags.u = true ∧ sU.flags.p = false ∧ 128 ≤ (0xFF : Byte).toNat ∧ sU.cfg.extHigh = .draw ∧ ramp.length = 256 ∧
    CanRespond sU 0xFF [] := by unfold CanRespond; decide +kernel
theorem witness_stream_commands : sU.flags.u = true ∧ sU.flags.p = false ∧ CanRespond sU 0xFF [] := by
  unfold CanRespond; decide
theorem witness_GuardedCommandsFailLocked :
    guardOf (.writeBlock 5 ramp) = some .writeBlock ∧ (Instr.writeBlock 5 ramp).wellFormed = true ∧
    sP.flags.u = false ∧ CanRespond sP 0xFE (policyText sP.cfg.lockMsg .writeBlock) := by unfold CanRespond; decide +kernel
theorem witness_GuardedCommandsFailInPassthrough :
    guardOf .txStream = some .txStream ∧ Instr.txStream.wellFormed = true ∧ sUP.flags.u = true ∧ sUP.flags.p = true ∧
    CanRespond sUP 0xFE (policyText sUP.cfg.ptMsg .txStream) := by unfold CanRespond; decide
theorem witness_UnadmittedRequestsGetTheProtocolError :
    (0x00 : Byte).toNat = 0 ∧ 0x0B ≤ (0x0B : Byte).toNat ∧ admits 0x08 256 = false ∧
    CanRespond sU 0xFE (protocolText 0x00) ∧ CanRespond sU 0xFE (protocolText 0x0B) ∧
    CanRespond sU 0xFE (protocolText 0x08) := by unfold CanRespond; decide
theorem witness_FailedRequestsHaveNoEffect :
    (∃ e, decodeRequest ⟨0x0B, []⟩ = .error e) ∧ (∃ t, dispatch ⟨0x0B, []⟩ s0 = .next t) ∧
    (∃ i g, decodeRequest ⟨0x09, []⟩ = .ok i ∧ guardOf i = some g ∧ (s0.flags.u = false ∨ s0.flags.p = true)) ∧
    ∃ t, dispatch ⟨0x09, []⟩ s0 = .next t :=
  ⟨⟨_, rfl⟩, ⟨_, rfl⟩, ⟨_, _, rfl, rfl, .inl rfl⟩, ⟨_, rfl⟩⟩
theorem witness_DecodeInvertsEncode :
    (Instr.ping [1, 2, 3, 4, 5, 6, 7, 8]).wellFormed = true ∧ (Instr.writeBlock 0xFF ramp).wellFormed = true := by
  decide +kernel
theorem witness_DecodedRequestsEncodeBack : decode [0x07, 0x80] = .ok (.readBlock 0x80) := by decide
theorem witness_ReferenceFrameDeliversItsRequest : (List.replicate 65535 (0 : Byte)).length < 65536 := by
  rw [List.length_replicate]; omega

/-- A request that has arrived whole, after a tick that finds the machine not stalled. -/
def arrived (bytes : List Byte) : State := { sent sU bytes with tickLatch := true, stall := 7 }

theorem witness_StepRunsTheDecodedInstruction :
    NoReset (startIteration (arrived [0, 1, 7, 5])) ∧ (ticked (startIteration (arrived [0, 1, 7, 5]))).mode = .command ∧
    (ticked (startIteration (arrived [0, 1, 7, 5]))).outWin = [] ∧
    (fedFrom (ticked (startIteration (arrived [0, 1, 7, 5])))).req = some ⟨7, [5]⟩ ∧
    decodeRequest ⟨7, [5]⟩ = .ok (.readBlock 5) := by unfold NoReset; decide +kernel
theorem witness_StepAnswersUndecodableRequests :
    NoReset (startIteration (arrived [0, 0, 0xAB])) ∧ (ticked (startIteration (arrived [0, 0, 0xAB]))).mode = .command ∧
    (fedFrom (ticked (startIteration (arrived [0, 0, 0xAB])))).req = some ⟨0xAB, []⟩ ∧
    decodeRequest ⟨0xAB, []⟩ = .error (.unrecognized 0xAB) ∧
    CanRespond (ticked (startIteration (arrived [0, 0, 0xAB]))) 0xFE (protocolText 0xAB) := by
  unfold NoReset CanRespond; decide +kernel
/-- Half a frame has arrived: the length and the opcode, and one byte of two. -/
theorem witness_StepAnswersUndecodableRequests_partial :
    NoReset (startIteration (arrived [0, 2, 1, 0xDE])) ∧
    (ticked (startIteration (arrived [0, 2, 1, 0xDE]))).mode = .command ∧
    (ticked (startIteration (arrived [0, 2, 1, 0xDE]))).outWin = [] ∧
    (fedFrom (ticked (startIteration (arrived [0, 2, 1, 0xDE])))).req = none := by unfold NoReset; decide
theorem witness_IterationRunsTheModeStep :
    (NoReset (rxAt 0 [1]) ∧ (rxAt 0 [1]).rstLatch = false ∧ (rxAt 0 [1]).tickLatch = false) ∧
    NoReset { txAt 0 [1] with tickLatch := true, stall := 999 } := by unfold NoReset; decide
theorem witness_UndrainedResponseHoldsCommandMode :
    ({ sU with outWin := [0xFF] } : State).mode = .command ∧ ({ sU with outWin := [0xFF] } : State).outWin ≠ [] := by decide
theorem witness_StreamsDecodeNothing :
    (rxAt 0 [1]).mode ≠ .command ∧ NoReset (rxAt 0 [1]) ∧ (∃ t, seqPart (rxAt 0 [1]) = .next t) ∧
    (txAt 0 [1]).mode ≠ .command ∧ NoReset (txAt 0 [1]) ∧ ∃ t, seqPart (txAt 0 [1]) = .next t :=
  ⟨by decide, by unfold NoReset; decide, (exists_of_passes (p := fun _ => true) (by decide +kernel)).imp fun _ h => h.1,
   by decide, by unfold NoReset; decide, (exists_of_passes (p := fun _ => true) (by decide +kernel)).imp fun _ h => h.1⟩
theorem witness_FeedingContinuesAcrossChunks : (feed .reference .idle [0, 2, 1]).req = none := by decide

/-- Each command answers a next state somewhere: the premise of the frames. -/
theorem witness_frames :
    (∃ t, exec (.ping [1]) s0 = .next t) ∧ (∃ t, exec .version s0 = .next t) ∧ (∃ t, exec .status s0 = .next t) ∧
    (∃ t, exec (.setUnlocked 1) s0 = .next t) ∧ (∃ t, exec (.setPassthrough 1) s0 = .next t) ∧
    (∃ t, exec (.setReset 1) s0 = .next t) ∧ (∃ t, exec (.readBlock 5) sU = .next t) ∧
    (∃ t, exec (.writeBlock 5 ramp) sU = .next t) ∧ (∃ t, exec .rxStream sU = .next t) ∧
    ∃ t, exec .txStream sU = .next t := by
  refine ⟨?_, ?_, ?_, ?_, ?_, ?_, ?_, ?_, ?_, ?_⟩ <;>
    exact (exists_of_passes (p := fun _ => true) (by decide +kernel)).imp fun _ h => h.1
theorem witness_AdvanceStepsTheCursor : (rxAt 0x00FF []).curL = 0xFF ∧ (rxAt 0x0100 []).curL ≠ 0xFF := by decide
theorem witness_ReceiveStepStoresEveryByte :
    (rxAt 0x7FFE [0x11]).mode = .receiveStream ∧ atStreamPosition (rxAt 0x7FFE [0x11]) ∧
    (rxAt 0x7FFE [0x11]).inWin.length < (rxAt 0x7FFE [0x11]).remain.toNat := by unfold atStreamPosition; decide
theorem witness_ReceiveStepCompletes :
    (rxAt 0x7FFF [0x11, 0x22]).mode = .receiveStream ∧ atStreamPosition (rxAt 0x7FFF [0x11, 0x22]) ∧
    1 ≤ (rxAt 0x7FFF [0x11, 0x22]).remain.toNat ∧
    (rxAt 0x7FFF [0x11, 0x22]).remain.toNat ≤ (rxAt 0x7FFF [0x11, 0x22]).inWin.length := by
  unfold atStreamPosition; decide
theorem witness_TransmitStepFillsOneChunk :
    (txAt 0 [1]).mode = .transmitStream ∧ (txAt 0 [1]).remain ≠ 0 ∧ (txAt 0 [1]).outWin ≠ [] ∧
    (txAt 0x7FFF []).mode = .transmitStream ∧ (txAt 0x7FFF []).remain ≠ 0 ∧ (txAt 0x7FFF []).outWin = [] ∧
    atStreamPosition (txAt 0x7FFF []) ∧
    1 = min (txAt 0x7FFF []).remain.toNat (txAt 0x7FFF []).cfg.chunkMax ∧ 1 ≤ (txAt 0x7FFF []).cfg.outCap := by
  unfold atStreamPosition; decide
theorem witness_TransmitStepCompletes : (txAt 0x8000 [1]).mode = .transmitStream ∧ (txAt 0x8000 [1]).remain = 0 := by decide
theorem witness_ReceiveStreamStoresTheWholeImage :
    (rxAt 0 []).mode = .receiveStream ∧ (rxAt 0 []).remain = 32768 ∧ cursor (rxAt 0 []) = 0 ∧
    ([List.replicate 3 (1 : Byte), [], List.replicate 32765 2] : List (List Byte)).flatten.length = 32768 := by
  refine ⟨by decide, by decide, by decide, ?_⟩
  simp only [List.flatten_cons, List.flatten_nil, List.length_append, List.length_replicate, List.length_nil]
theorem witness_TransmitStreamSendsTheWholeImage :
    ∃ (s : State) (n : Nat), s.mode = .transmitStream ∧ s.remain = 32768 ∧ cursor s = 0 ∧ s.outWin = [] ∧
      1 ≤ s.cfg.chunkMax ∧ s.cfg.chunkMax ≤ s.cfg.outCap ∧ (n - 1) * s.cfg.chunkMax < 32768 ∧ 32768 ≤ n * s.cfg.chunkMax :=
  ⟨{ txAt 0 [] with cfg := { resetConfig with chunkMax := 100 } }, 328, by decide, by decide, by decide, by decide, by decide,
   by decide, by decide, by decide⟩
theorem witness_ReadAfterWriteReturnsTheData :
    sU.flags.u = true ∧ sU.flags.p = false ∧ ((5 : Byte).toNat < 128 ∨ sU.cfg.extHigh = .mirror) ∧ ramp.length = 256 ∧
    CanRespond sU 0xFF ramp ∧ ∃ t, exec (.writeBlock 5 ramp) sU = .next t :=
  ⟨rfl, rfl, by decide, by decide +kernel, ⟨rfl, by decide +kernel⟩, witness_frames.2.2.2.2.2.2.2.1⟩
theorem witness_BusResetIsTakenFirst :
    (startIteration { txAt 22768 [1] with draws := [⟨[.tick, .busReset], true, true⟩] }).rstLatch = true := by decide

/-- A machine with a pending tick. -/
def tickPending (s : State) (n : Count) : State := { s with tickLatch := true, stall := n }

theorem witness_WatchdogCountsStalledTicks_progress :
    (tickPending (rxAt 0 [1]) 1000).rstLatch = false ∧ (tickPending (rxAt 0 [1]) 1000).tickLatch = true ∧
    (tickPending (rxAt 0 [1]) 1000).stall.toNat ≤ 1000 ∧
    (false = true ↔ (((tickPending (rxAt 0 [1]) 1000).mode = .command ∨ (tickPending (rxAt 0 [1]) 1000).mode = .transmitStream) ∧
        (tickPending (rxAt 0 [1]) 1000).outWin ≠ []) ∨
      ((tickPending (rxAt 0 [1]) 1000).mode = .receiveStream ∧ (tickPending (rxAt 0 [1]) 1000).inWin = [])) := by decide
theorem witness_WatchdogCountsStalledTicks_stalled :
    (tickPending (rxAt 0 []) 999).rstLatch = false ∧ (tickPending (rxAt 0 []) 999).tickLatch = true ∧
    (tickPending (rxAt 0 []) 999).stall.toNat < 1000 ∧
    (true = true ↔ (((tickPending (rxAt 0 []) 999).mode = .command ∨ (tickPending (rxAt 0 []) 999).mode = .transmitStream) ∧
        (tickPending (rxAt 0 []) 999).outWin ≠ []) ∨
      ((tickPending (rxAt 0 []) 999).mode = .receiveStream ∧ (tickPending (rxAt 0 []) 999).inWin = [])) := by decide
theorem witness_WatchdogCountsStalledTicks_limit :
    (tickPending (txAt 0 [1]) 1000).rstLatch = false ∧ (tickPending (txAt 0 [1]) 1000).tickLatch = true ∧
    (tickPending (txAt 0 [1]) 1000).stall.toNat = 1000 ∧
    (true = true ↔ (((tickPending (txAt 0 [1]) 1000).mode = .command ∨ (tickPending (txAt 0 [1]) 1000).mode = .transmitStream) ∧
        (tickPending (txAt 0 [1]) 1000).outWin ≠ []) ∨
      ((tickPending (txAt 0 [1]) 1000).mode = .receiveStream ∧ (tickPending (txAt 0 [1]) 1000).inWin = [])) := by decide
theorem witness_StalledTicksEndInReset :
    ∃ (s : State) (rest : List Draw), stalled s = true ∧ ModeInv s ∧ s.rstLatch = false ∧ s.stall = 0 ∧
      s.draws = List.replicate 1001 ⟨[.tick], false, false⟩ ++ rest :=
  ⟨{ sU with outWin := [0xFF], draws := List.replicate 1001 ⟨[.tick], false, false⟩ ++ [] }, [], rfl, rfl, rfl, rfl, rfl⟩
theorem witness_EventsOnlySetLatches :
    ∀ e ∈ [EnvEvent.tick, .busReset], e = .busReset ∨ e = .tick := by decide
theorem witness_GbWritesOnlyInPassthrough :
    sU.flags.p = false ∧ sUP.flags.p = true ∧
    (∀ x v, EnvEvent.gbWrite x v ∈ [EnvEvent.gbWrite 0x7FFF 1, .tick] → x.toNat ≠ 0x7FFE) := by
  refine ⟨rfl, rfl, fun x v h => ?_⟩
  simp only [List.mem_cons, EnvEvent.gbWrite.injEq, reduceCtorEq, List.not_mem_nil, or_false] at h
  rw [h.1]; decide
theorem witness_EnvironmentWritesNoRegister :
    ∃ t, t = environment ⟨[], true, true⟩ (applyEvents [.gbWrite 0x7FFF 1, .tick] { sUP with hostIn := [[1]] }) := ⟨_, rfl⟩
theorem witness_RefillTakesOneChunk :
    ({ sU with hostIn := [List.replicate 64 1] } : State).inWin = [] ∧
    ({ sU with hostIn := [List.replicate 64 1] } : State).hostIn = List.replicate 64 1 :: [] ∧
    1 ≤ (List.replicate 64 (1 : Byte)).length ∧ (List.replicate 64 (1 : Byte)).length ≤ sU.cfg.chunkMax ∧
    (∃ c cs, ({ sU with hostIn := [List.replicate 65 1] } : State).hostIn = c :: cs ∧ (c = [] ∨ sU.cfg.chunkMax < c.length)) ∧
    ∃ c cs, ({ sU with hostIn := [[]] } : State).hostIn = c :: cs ∧ (c = [] ∨ sU.cfg.chunkMax < c.length) :=
  ⟨rfl, rfl, by decide, by decide, ⟨_, _, rfl, .inr (by decide)⟩, ⟨_, _, rfl, .inl rfl⟩⟩
theorem witness_DrainSendsOneSlice :
    ({ sU with outWin := List.replicate 65 1 } : State).outWin ≠ [] ∧
    64 = min ({ sU with outWin := List.replicate 65 1 } : State).outWin.length sU.cfg.chunkMax ∧ sU.outWin = [] := by decide
theorem witness_BootMeetsTheInvariant : Memory.wf [(0, 1), (0x7FFF, 0xFF)] = true := by decide

/-- The state at reset meets the invariant. -/
theorem reset_inv : Inv State.reset where
  mode    := rfl
  stall   := by unfold StallInv; decide
  windows := by unfold WindowInv; decide
  guards  := fun h => absurd rfl h
  hist    := ⟨rfl, rfl⟩
  mem     := rfl

theorem witness_StepKeepsTheInvariant : Inv State.reset ∧ ∃ t, step State.reset = .next t := ⟨reset_inv, ⟨_, rfl⟩⟩
theorem witness_EveryStepAnswersANextState : ConfigFits State.reset.cfg := test_reset_config_fits
theorem witness_step_answers : ∃ t, step State.reset = .next t := ⟨_, rfl⟩
theorem witness_RefusedModesReachNoMemory :
    ((startIteration (arrived [0, 1, 7, 5])).mode = .command ∧
      accessMode (startIteration { arrived [0, 1, 7, 5] with flags := ⟨false, true, false⟩ }).flags ≠ .open ∧
      accessMode (startIteration { arrived [0, 1, 7, 5] with flags := ⟨true, true, false⟩ }).flags ≠ .open) ∧
    ∃ t, step { arrived [0, 1, 7, 5] with flags := ⟨true, true, false⟩ } = .next t :=
  ⟨by decide, (exists_of_passes (p := fun _ => true) (by decide +kernel)).imp fun _ h => h.1⟩
theorem witness_OnlyFlagCommandsChangeFlags :
    NoReset (startIteration (arrived [0, 1, 4, 0])) ∧
    ∃ t, step (arrived [0, 1, 4, 0]) = .next t ∧ t.flags ≠ (arrived [0, 1, 4, 0]).flags := by
  refine ⟨by unfold NoReset; decide, ?_⟩
  obtain ⟨t, h, hp⟩ := exists_of_passes (r := step (arrived [0, 1, 4, 0]))
    (p := fun t => decide (t.flags ≠ (arrived [0, 1, 4, 0]).flags)) (by decide +kernel)
  exact ⟨t, h, of_decide_eq_true hp⟩
theorem witness_QuiescentStateStays :
    ({ s0 with draws := [⟨[.tick], true, true⟩], stall := 3 } : State).quiescent = true ∧
    (∀ e ∈ (nextDraw { s0 with draws := [⟨[.tick], true, true⟩], stall := 3 }).events, e = .tick) ∧
    ({ s0 with stall := 3 } : State).quiescent = true ∧ (nextDraw { s0 with stall := 3 }).events = [] ∧
    ({ s0 with stall := 3 } : State).tickLatch = false := by decide

end Sys2Proof.Tests
end

section
/-! PROOFS. What a step does to the parameters, the script of draws and the host's queues (R7, log entries 1, 9
and 10): the sequencer's part keeps all four, the start of an iteration takes one draw, and only the environment's
part touches the host's queues. -/

namespace Sys2Proof.Machine

/-! ### The sequencer's part -/

/-- `t` has the parameters, the draws and the host's queues of `s`. -/
structure KeepsOwnFields (s t : State) : Prop where
  cfg     : t.cfg = s.cfg
  draws   : t.draws = s.draws
  hostIn  : t.hostIn = s.hostIn
  hostOut : t.hostOut = s.hostOut

/-- A command that ran, after the codec was fed: neither its effect nor its answer writes the four fields. -/
theorem answered_commandEffect_keepsOwnFields (i : Instr) (s : State) (st : Byte) (q : List Byte) :
    KeepsOwnFields s (answered (commandEffect i (afterFeed s)) st q) := by
  obtain ⟨-, hcfg, -, -, -, -, -, hdraws, hin, hout⟩ := commandEffect_keeps i (afterFeed s)
  exact ⟨hcfg, hdraws, hin, hout⟩

theorem receiveStep_keepsOwnFields (s : State) : KeepsOwnFields s (receiveStep s) := by
  obtain ⟨_, e, -⟩ := receiveStep_cases s
  rw [e]
  exact ⟨rfl, rfl, rfl, rfl⟩

theorem afterChunk_keepsOwnFields (s : State) : KeepsOwnFields s (afterChunk s) := by
  obtain ⟨_, e⟩ := afterChunk_state s
  rw [e]
  exact ⟨rfl, rfl, rfl, rfl⟩

theorem transmitStep_keepsOwnFields {s t : State} (h : transmitStep s = .next t) : KeepsOwnFields s t := by
  rcases transmitStep_next h with ⟨-, rfl⟩ | ⟨-, rfl⟩ | ⟨-, -, -, e, -⟩
  · exact ⟨rfl, rfl, rfl, rfl⟩
  · exact ⟨rfl, rfl, rfl, rfl⟩
  · rw [e]
    exact { afterChunk_keepsOwnFields s with }

theorem modeStep_keepsOwnFields {s t : State} (h : modeStep s = .next t) : KeepsOwnFields s t := by
  rcases modeStep_next h with ⟨-, hcommand⟩ | ⟨-, rfl⟩ | ⟨-, htransmit⟩
  · rcases hcommand with rfl | rfl | ⟨e, -⟩ | ⟨_, i, -, -, -, -, rfl⟩
    · exact ⟨rfl, rfl, rfl, rfl⟩
    · exact ⟨rfl, rfl, rfl, rfl⟩
    · rw [e]
      exact ⟨rfl, rfl, rfl, rfl⟩
    · exact answered_commandEffect_keepsOwnFields i s _ _
  · exact receiveStep_keepsOwnFields s
  · exact transmitStep_keepsOwnFields htransmit

theorem seqPart_keepsOwnFields {s t : State} (h : seqPart s = .next t) : KeepsOwnFields s t := by
  rcases seqPart_cases s with ⟨-, e⟩ | ⟨_, _, e⟩
  · have hkeep := modeStep_keepsOwnFields (e.symm.trans h)
    rw [ticked_state] at hkeep
    exact { hkeep with }
  · cases e.symm.trans h
    exact ⟨rfl, rfl, rfl, rfl⟩

/-! ### The environment's part -/

theorem refillInbound_hostIn (b : Bool) (s : State) :
    (refillInbound b s).hostIn = s.hostIn ∨ (refillInbound b s).hostIn = s.hostIn.tail := by
  rcases refillInbound_cases b s with e | ⟨c, cs, -, hq, -, -, e⟩
  · exact .inl (by rw [e])
  · exact .inr (by rw [e, hq, List.tail_cons])

@[simp] theorem refillInbound_hostOut (b : Bool) (s : State) : (refillInbound b s).hostOut = s.hostOut := by
  rcases refillInbound_cases b s with e | ⟨_, _, -, -, -, -, e⟩ <;> rw [e]

@[simp] theorem drainOutbound_hostIn (b : Bool) (s : State) : (drainOutbound b s).hostIn = s.hostIn := by
  rcases drainOutbound_cases b s with e | ⟨-, -, e⟩ <;> rw [e]

theorem drainOutbound_hostOut (b : Bool) (s : State) :
    (drainOutbound b s).hostOut = s.hostOut ∨ ∃ slice, (drainOutbound b s).hostOut = slice :: s.hostOut := by
  rcases drainOutbound_cases b s with e | ⟨-, -, e⟩
  · exact .inl (by rw [e])
  · exact .inr ⟨_, by rw [e]⟩

@[simp] theorem environment_cfg (d : Draw) (s : State) : (environment d s).cfg = s.cfg := by rw [environment_state]

@[simp] theorem environment_draws (d : Draw) (s : State) : (environment d s).draws = s.draws := by
  rw [environment_state]

/-- The environment takes at most the first chunk of the host's queue. -/
theorem environment_hostIn (d : Draw) (s : State) :
    (environment d s).hostIn = s.hostIn ∨ (environment d s).hostIn = s.hostIn.tail := by
  rw [environment, drainOutbound_hostIn]
  exact refillInbound_hostIn _ s

/-- The environment hands over at most one slice. -/
theorem environment_hostOut (d : Draw) (s : State) :
    (environment d s).hostOut = s.hostOut ∨ ∃ slice, (environment d s).hostOut = slice :: s.hostOut := by
  rw [environment, ← refillInbound_hostOut d.chunkAvail s]
  exact drainOutbound_hostOut _ _

/-! ### The step -/

/-- Up to the environment's part, a step that answers has taken one draw and kept the rest. -/
theorem seqPart_startIteration_keepsOwnFields {s x : State} (h : seqPart (startIteration s) = .next x) :
    KeepsOwnFields { s with draws := s.draws.tail } x := by
  have hkeep := seqPart_keepsOwnFields h
  rw [startIteration_state] at hkeep
  exact { hkeep with }

/-- Settles O55: the sequencer's part keeps the four fields but for the draw taken, and the environment's part moves
at most one chunk in and one slice out. -/
theorem stepKeepsTheParameters : Obligations.StepKeepsTheParameters := by
  unfold Obligations.StepKeepsTheParameters
  intro s t h
  obtain ⟨x, hx, rfl⟩ := step_next.1 h
  obtain ⟨hcfg, hdraws, hin, hout⟩ := seqPart_startIteration_keepsOwnFields hx
  refine ⟨by rw [environment_cfg, hcfg], by rw [environment_draws, hdraws], ?_, ?_⟩
  · have := environment_hostIn (nextDraw s) x
    rwa [hin] at this
  · rw [← hout]
    rcases environment_hostOut (nextDraw s) x with e | ⟨slice, e⟩
    · exact .inl e
    · exact .inr (by rw [e, List.headD_cons])

end Sys2Proof.Machine
end

section
/-! PROOFS. The environment's agents (R38 to R40): the events between iterations set latches and never clear one,
refill takes one chunk, drain sends one slice, and none of them writes a register of the sequencer. -/

namespace Sys2Proof.Machine

/-! ### Events -/

theorem applyEvent_rstLatch (e : EnvEvent) (s : State) :
    (applyEvent e s).rstLatch = (s.rstLatch || decide (e = .busReset)) := by
  cases e with
  | busReset => simp [applyEvent]
  | gbWrite a v => simp only [applyEvent]; split <;> simp
  | _ => simp [applyEvent]

theorem applyEvent_tickLatch (e : EnvEvent) (s : State) :
    (applyEvent e s).tickLatch = (s.tickLatch || decide (e = .tick)) := by
  cases e with
  | tick => simp [applyEvent]
  | gbWrite a v => simp only [applyEvent]; split <;> simp
  | _ => simp [applyEvent]

theorem applyEvents_rstLatch (es : List EnvEvent) (s : State) :
    (applyEvents es s).rstLatch = (s.rstLatch || decide (EnvEvent.busReset ∈ es)) := by
  induction es generalizing s with
  | nil => simp [applyEvents]
  | cons e es ih => simp [applyEvents, ih, applyEvent_rstLatch, Bool.or_assoc, eq_comm]

theorem applyEvents_tickLatch (es : List EnvEvent) (s : State) :
    (applyEvents es s).tickLatch = (s.tickLatch || decide (EnvEvent.tick ∈ es)) := by
  induction es generalizing s with
  | nil => simp [applyEvents]
  | cons e es ih => simp [applyEvents, ih, applyEvent_tickLatch, Bool.or_assoc, eq_comm]

/-- Interrupt events leave MEM alone: only the GB writes it. -/
theorem applyEvents_mem_of_interrupts {es : List EnvEvent} (h : ∀ e ∈ es, e = .busReset ∨ e = .tick) (s : State) :
    (applyEvents es s).mem = s.mem := by
  induction es generalizing s with
  | nil => rfl
  | cons e es ih =>
    rw [applyEvents, ih (fun x hx => h x (List.mem_cons_of_mem e hx))]
    rcases h e List.mem_cons_self with rfl | rfl <;> rfl

/-- Settles O45: each latch is the old latch or whether its event occurred, and interrupt events leave MEM, the one
other field events write. -/
theorem eventsOnlySetLatches : Obligations.EventsOnlySetLatches := by
  unfold Obligations.EventsOnlySetLatches
  intro s es
  refine ⟨applyEvents_rstLatch es s, applyEvents_tickLatch es s, fun h => ?_⟩
  have e := applyEvents_state es s
  rwa [applyEvents_mem_of_interrupts h] at e

/-! ### The environment's part -/

@[simp] theorem environment_rstLatch (d : Draw) (s : State) : (environment d s).rstLatch = s.rstLatch := by
  rw [environment_state]

@[simp] theorem environment_tickLatch (d : Draw) (s : State) : (environment d s).tickLatch = s.tickLatch := by
  rw [environment_state]

@[simp] theorem environment_mem (d : Draw) (s : State) : (environment d s).mem = s.mem := by
  rw [environment_state]

/-- Settles O48: the environment's part writes the windows and the host's queues, the events before it the latches
and MEM. -/
theorem environmentWritesNoRegister : Obligations.EnvironmentWritesNoRegister := by
  unfold Obligations.EnvironmentWritesNoRegister
  intro s t es d h
  have e : t = { applyEvents es s with
      inWin := t.inWin, outWin := t.outWin, hostIn := t.hostIn, hostOut := t.hostOut } := by
    rw [h]
    exact environment_state d _
  have hrst : t.rstLatch = (applyEvents es s).rstLatch := by rw [h, environment_rstLatch]
  have htick : t.tickLatch = (applyEvents es s).tickLatch := by rw [h, environment_tickLatch]
  have hmem : t.mem = (applyEvents es s).mem := by rw [h, environment_mem]
  rw [applyEvents_state, ← hrst, ← htick, ← hmem] at e
  exact e

theorem chunkFits_iff {s : State} {c : List Byte} :
    chunkFits s c = true ↔ 1 ≤ c.length ∧ c.length ≤ s.cfg.chunkMax := decide_eq_true_iff

theorem refillInbound_of_chunk {s : State} {c : List Byte} {cs : List (List Byte)} (hin : s.inWin = [])
    (hq : s.hostIn = c :: cs) (hfit : chunkFits s c = true) :
    refillInbound true s = { s with inWin := c, hostIn := cs } := by
  simp [refillInbound, hin, hq, hfit]

/-- Settles O49: where refill does anything, IN was empty and an available chunk of the right size was next (U17). -/
theorem refillTakesOneChunk : Obligations.RefillTakesOneChunk := by
  unfold Obligations.RefillTakesOneChunk
  intro s avail
  refine ⟨fun c cs hin hq ha hpos hmax => ?_, fun h => ?_⟩
  · rw [ha, refillInbound_of_chunk hin hq (chunkFits_iff.2 ⟨hpos, hmax⟩)]
  · rcases refillInbound_cases avail s with e | ⟨c, cs, hin, hq, ha, hfit, -⟩
    · exact e
    · obtain ⟨hpos, hmax⟩ := chunkFits_iff.1 hfit
      rcases h with h | h | h | ⟨c', cs', hq', h⟩
      · exact absurd hin h
      · simp [h] at hq
      · simp [h] at ha
      · obtain ⟨rfl, -⟩ := List.cons.inj (hq.symm.trans hq')
        rcases h with rfl | h
        · simp at hpos
        · omega

/-- Settles O50: drain cuts OUT at CHUNK_MAX, which is the cut at the smaller of CHUNK_MAX and the length (D37). -/
theorem drainSendsOneSlice : Obligations.DrainSendsOneSlice := by
  unfold Obligations.DrainSendsOneSlice
  intro s k
  refine ⟨fun ho hk => ?_, fun ho => by simp [drainOutbound, ho], rfl⟩
  have htake : s.outWin.take s.cfg.chunkMax = s.outWin.take k := by
    rw [List.take_eq_take_iff]; omega
  have hdrop : s.outWin.drop s.cfg.chunkMax = s.outWin.drop k := by
    rw [List.drop_eq_drop_iff]; omega
  simp [drainOutbound, ho, htake, hdrop]

end Sys2Proof.Machine
end

section
/-! PROOFS. What a step does to HIST (R35): the history before it is a suffix of the history after it, in every way
a mode step or a Reset can go. -/

namespace Sys2Proof.Machine

theorem commandEffect_hist_suffix (i : Instr) (s : State) : s.hist <:+ (commandEffect i s).hist := by
  cases i with
  | ping p => exact List.suffix_rfl
  | version => exact List.suffix_rfl
  | status => exact List.suffix_rfl
  | setUnlocked b => exact List.suffix_rfl
  | setPassthrough b => exact List.suffix_cons _ _
  | setReset b => exact List.suffix_cons _ _
  | readBlock h =>
    rw [commandEffect, readBlockBus_state]
    exact ((List.suffix_cons _ _).trans (List.suffix_append _ _)).trans (List.suffix_cons _ _)
  | writeBlock h data =>
    rw [commandEffect, writeBlockBus_state]
    exact ((List.suffix_cons _ _).trans (List.suffix_append _ _)).trans (List.suffix_cons _ _)
  | rxStream => exact List.suffix_cons _ _
  | txStream => exact List.suffix_cons _ _

theorem receiveStep_hist_suffix (s : State) : s.hist <:+ (receiveStep s).hist := by
  obtain ⟨ws, -, ⟨-, -, e, -⟩ | ⟨-, -, e⟩⟩ := receiveStep_cases s
  · rw [e]
    exact List.suffix_append _ _
  · rw [e]
    exact (List.suffix_append _ _).trans (List.suffix_cons _ _)

theorem transmitStep_hist_suffix {s t : State} (h : transmitStep s = .next t) : s.hist <:+ t.hist := by
  rcases transmitStep_next h with ⟨-, rfl⟩ | ⟨-, rfl⟩ | ⟨-, -, -, e, -⟩
  · exact List.suffix_cons _ _
  · exact List.suffix_rfl
  · obtain ⟨as, eChunk⟩ := afterChunk_state s
    rw [e, eChunk]
    exact List.suffix_append _ _

theorem modeStep_hist_suffix {s t : State} (h : modeStep s = .next t) : s.hist <:+ t.hist := by
  rcases modeStep_next h with ⟨-, hcommand⟩ | ⟨-, rfl⟩ | ⟨-, htransmit⟩
  · rcases hcommand with rfl | rfl | ⟨e, -⟩ | ⟨_, i, -, -, -, -, rfl⟩
    · exact List.suffix_rfl
    · exact List.suffix_rfl
    · rw [e]
      exact List.suffix_rfl
    · exact commandEffect_hist_suffix i (afterFeed s)
  · exact receiveStep_hist_suffix s
  · exact transmitStep_hist_suffix htransmit

@[simp] theorem ticked_hist (s : State) : (ticked s).hist = s.hist := by rw [ticked_state]

theorem seqPart_hist_suffix {s t : State} (h : seqPart s = .next t) : s.hist <:+ t.hist := by
  rcases seqPart_cases s with ⟨-, e⟩ | ⟨_, _, e⟩
  · exact ticked_hist s ▸ modeStep_hist_suffix (e.symm.trans h)
  · cases e.symm.trans h
    exact (List.suffix_cons _ _).trans (List.suffix_cons _ _)

@[simp] theorem startIteration_hist (s : State) : (startIteration s).hist = s.hist := by rw [startIteration_state]

@[simp] theorem environment_hist (d : Draw) (s : State) : (environment d s).hist = s.hist := by
  rw [environment_state]

/-- Settles O58: the sequencer's part only adds to HIST, and what surrounds it leaves HIST alone. -/
theorem historyOnlyGrows : Obligations.HistoryOnlyGrows := by
  unfold Obligations.HistoryOnlyGrows
  intro s t h
  obtain ⟨x, hx, rfl⟩ := step_next.1 h
  obtain ⟨es, hes⟩ := seqPart_hist_suffix hx
  exact ⟨es, by rw [environment_hist, ← hes, startIteration_hist]⟩

end Sys2Proof.Machine
end

section
/-! PROOFS. What a step without Reset does to FLAGS (R23, R37): a command that is no flag command keeps them, and so
do both streams. -/

namespace Sys2Proof.Machine

theorem commandEffect_flags {i : Instr} (h : isFlagCommand i = false) (s : State) :
    (commandEffect i s).flags = s.flags := by
  cases i with
  | setUnlocked b => cases h
  | setPassthrough b => cases h
  | setReset b => cases h
  | readBlock a => rw [commandEffect, readBlockBus_state]
  | writeBlock a data => rw [commandEffect, writeBlockBus_state]
  | _ => rfl

@[simp] theorem receiveStep_flags (s : State) : (receiveStep s).flags = s.flags := by
  obtain ⟨_, e, -⟩ := receiveStep_cases s
  rw [e]

theorem transmitStep_flags {s t : State} (h : transmitStep s = .next t) : t.flags = s.flags := by
  rcases transmitStep_next h with ⟨-, rfl⟩ | ⟨-, rfl⟩ | ⟨-, -, -, e, -⟩
  · rfl
  · rfl
  · obtain ⟨_, eChunk⟩ := afterChunk_state s
    rw [e, eChunk]

/-- A completed request of Command mode that decodes to a flag command. -/
def FlagRequestDue (s : State) : Prop :=
  ∃ r i, s.mode = .command ∧ (fedFrom s).req = some r ∧ decodeRequest r = .ok i ∧ isFlagCommand i = true

theorem modeStep_flags {s t : State} (h : modeStep s = .next t) : t.flags = s.flags ∨ FlagRequestDue s := by
  rcases modeStep_next h with ⟨hm, hcommand⟩ | ⟨-, rfl⟩ | ⟨-, htransmit⟩
  · rcases hcommand with rfl | rfl | ⟨e, -⟩ | ⟨r, i, hreq, hdec, -, -, rfl⟩
    · exact .inl rfl
    · exact .inl rfl
    · exact .inl (by rw [e]; rfl)
    · cases hf : isFlagCommand i with
      | false => exact .inl (commandEffect_flags hf (afterFeed s))
      | true => exact .inr ⟨r, i, hm, hreq, hdec, hf⟩
  · exact .inl (receiveStep_flags s)
  · exact .inl (transmitStep_flags htransmit)

/-- Counting a tick has no part in which request is due. -/
theorem flagRequestDue_ticked {s : State} : FlagRequestDue (ticked s) ↔ FlagRequestDue s := by
  rw [ticked_state]; rfl

@[simp] theorem ticked_flags (s : State) : (ticked s).flags = s.flags := by rw [ticked_state]

@[simp] theorem startIteration_flags (s : State) : (startIteration s).flags = s.flags := by rw [startIteration_state]

@[simp] theorem environment_flags (d : Draw) (s : State) : (environment d s).flags = s.flags := by
  rw [environment_state]

/-- Settles O57: without a Reset the step is a mode step, which keeps FLAGS unless a flag command is due. -/
theorem onlyFlagCommandsChangeFlags : Obligations.OnlyFlagCommandsChangeFlags := by
  unfold Obligations.OnlyFlagCommandsChangeFlags
  intro s t hno h hne
  obtain ⟨x, hx, rfl⟩ := step_next.1 h
  rw [seqPart_noReset hno] at hx
  rcases modeStep_flags hx with e | hdue
  · exact absurd (by simpa using e) hne
  · exact flagRequestDue_ticked.1 hdue

end Sys2Proof.Machine
end

section
/-! PROOFS. The invariant of the machine (R41, R59, R67 and the canonical form of memory): it holds at power-up, and
each part of an iteration keeps it. A command and a stream step are taken field by field of `Inv`. -/

namespace Sys2Proof.Machine

/-! ### The invariant of each mode (items 1 to 4 of R41, R59) -/

theorem modeInv_command {s : State} (hm : s.mode = .command) : ModeInv s ↔ s.busCfg = .idle := by
  simp only [ModeInv, hm]

theorem modeInv_receiveStream {s : State} (hm : s.mode = .receiveStream) :
    ModeInv s ↔ s.busCfg = .write ∧ 1 ≤ s.remain.toNat ∧ atStreamPosition s := by
  simp only [ModeInv, hm]

theorem modeInv_transmitStream {s : State} (hm : s.mode = .transmitStream) :
    ModeInv s ↔ s.busCfg = .read ∧ atStreamPosition s := by
  simp only [ModeInv, hm]

theorem streamGuardInv_of_command {s : State} (hm : s.mode = .command) : StreamGuardInv s := fun h => absurd hm h

/-- Settles O52: at power-up the machine is in Command mode with the bus idle, no event and empty windows (D22). -/
theorem bootMeetsTheInvariant : Obligations.BootMeetsTheInvariant := by
  unfold Obligations.BootMeetsTheInvariant
  intro c m hm
  exact {
    mode    := rfl
    stall   := Nat.zero_le _
    windows := ⟨Nat.zero_le _, Nat.zero_le _⟩
    guards  := streamGuardInv_of_command rfl
    hist    := ⟨rfl, rfl⟩
    mem     := hm }

/-! ### The history under bus operations -/

theorem HistInv.setBusCfg {s : State} (h : HistInv s) (c : BusCfg) : HistInv (s.setBusCfg c) := ⟨rfl, h.2⟩

theorem HistInv.memReads {s : State} (h : HistInv s) (hb : s.busCfg = .read) (as : List Addr) :
    HistInv (memReads as s).2 := by
  rw [memReads_state]
  exact ⟨(lastCfg_readEvents _ _ _).trans h.1, busOrdered_readEvents (h.1.trans hb) h.2⟩

theorem HistInv.memWrites {s : State} (h : HistInv s) (hb : s.busCfg = .write) (ws : List (Addr × Byte)) :
    HistInv (memWrites ws s) := by
  rw [memWrites_state]
  exact ⟨(lastCfg_writeEvents _ _).trans h.1, busOrdered_writeEvents (h.1.trans hb) h.2⟩

/-! ### Commands -/

theorem commandEffect_histInv {s : State} (h : HistInv s) (i : Instr) : HistInv (commandEffect i s) := by
  cases i with
  | readBlock a => exact ((h.setBusCfg .read).memReads rfl _).setBusCfg .idle
  | writeBlock a data => exact ((h.setBusCfg .write).memWrites rfl _).setBusCfg .idle
  | rxStream => exact h.setBusCfg .write
  | txStream => exact h.setBusCfg .read
  | _ => exact h

theorem commandEffect_memInv {s : State} (h : MemInv s) (i : Instr) : MemInv (commandEffect i s) := by
  cases i with
  | readBlock a =>
    rw [commandEffect, readBlockBus_state]
    exact h
  | writeBlock a data => exact memWrites_wf _ h
  | _ => exact h

theorem enterStream_atStreamPosition (m : Mode) (c : BusCfg) (s : State) : atStreamPosition (enterStream m c s) := by
  have hrem : (enterStream m c s).remain.toNat = spaceSize := rfl
  exact ⟨hrem.le, by rw [hrem, Nat.sub_self, cursor_toNat]; rfl⟩

@[simp] theorem readBlockBus_mode (a : Byte) (s : State) : (readBlockBus a s).2.mode = s.mode := by
  rw [readBlockBus_state]

@[simp] theorem writeBlockBus_mode (a : Byte) (data : List Byte) (s : State) :
    (writeBlockBus a data s).mode = s.mode := by
  rw [writeBlockBus_state]

theorem commandEffect_modeInv {s : State} (hm : s.mode = .command) (hb : s.busCfg = .idle) (i : Instr) :
    ModeInv (commandEffect i s) := by
  cases i with
  | readBlock a => exact (modeInv_command ((readBlockBus_mode a s).trans hm)).2 rfl
  | writeBlock a data => exact (modeInv_command ((writeBlockBus_mode a data s).trans hm)).2 rfl
  | rxStream =>
    exact (modeInv_receiveStream rfl).2 ⟨rfl, (by decide : 1 ≤ streamLen.toNat), enterStream_atStreamPosition _ _ s⟩
  | txStream => exact (modeInv_transmitStream rfl).2 ⟨rfl, enterStream_atStreamPosition _ _ s⟩
  | _ => exact (modeInv_command hm).2 hb

/-- A command that enters a stream is guarded, and every other one stays in Command mode (R59). -/
theorem commandEffect_streamGuardInv {s : State} (hm : s.mode = .command) {i : Instr}
    (hg : guardOf i ≠ none → s.flags.u = true ∧ s.flags.p = false) : StreamGuardInv (commandEffect i s) := by
  cases i with
  | readBlock a => exact streamGuardInv_of_command ((readBlockBus_mode a s).trans hm)
  | writeBlock a data => exact streamGuardInv_of_command ((writeBlockBus_mode a data s).trans hm)
  | rxStream => exact fun _ => hg (by simp [guardOf])
  | txStream => exact fun _ => hg (by simp [guardOf])
  | _ => exact streamGuardInv_of_command hm

theorem commandEffect_inv {s : State} (h : Inv s) (hm : s.mode = .command) {i : Instr}
    (hg : guardOf i ≠ none → s.flags.u = true ∧ s.flags.p = false) : Inv (commandEffect i s) := by
  obtain ⟨hout, hcfg, hin, -, hstall, -⟩ := commandEffect_keeps i s
  exact {
    mode    := commandEffect_modeInv hm ((modeInv_command hm).1 h.mode) i
    stall   := by rw [StallInv, hstall]; exact h.stall
    windows := by rw [WindowInv, hin, hout, hcfg]; exact h.windows
    guards  := commandEffect_streamGuardInv hm hg
    hist    := commandEffect_histInv h.hist i
    mem     := commandEffect_memInv h.mem i }

/-- A response of at most OUT_CAP bytes keeps the invariant. -/
theorem Inv.setOutWin {s : State} (h : Inv s) {bytes : List Byte} (hl : bytes.length ≤ s.cfg.outCap) :
    Inv { s with outWin := bytes } :=
  { h with windows := ⟨h.windows.1, hl⟩ }

theorem afterFeed_inv {s : State} (h : Inv s) : Inv (afterFeed s) :=
  { h with windows := ⟨(feed_rest_length _ _ _).trans h.windows.1, h.windows.2⟩ }

/-! ### Streams -/

/-- Taking `n` of the REMAIN bytes and moving the cursor by `n` keeps the two in agreement (R41). -/
theorem atStreamPosition_of_progress {s t : State} {n : Nat} (h : atStreamPosition s) (hn : n ≤ s.remain.toNat)
    (hc : (cursor t).toNat = (cursor s).toNat + n) (hr : t.remain = s.remain - BitVec.ofNat 16 n) :
    atStreamPosition t := by
  obtain ⟨hle, hcur⟩ := h
  have hlt := s.remain.isLt
  have hrem : t.remain.toNat = s.remain.toNat - n := by
    rw [hr, BitVec.toNat_sub, BitVec.toNat_ofNat]
    omega
  exact ⟨by omega, by omega⟩

theorem receiveBytes_atStreamPosition {s : State} (h : atStreamPosition s) :
    atStreamPosition (receiveBytes s.inWin s) := by
  have hn : (s.inWin.take s.remain.toNat).length ≤ s.remain.toNat := List.length_take_le _ _
  obtain ⟨hle, hcur⟩ := h
  obtain ⟨hc, hall⟩ := receiveAll_inside (s := s) (bs := s.inWin.take s.remain.toNat) (by omega)
  rw [receiveBytes_eq]
  exact atStreamPosition_of_progress ⟨hle, hcur⟩ hn hc (by rw [hall])

theorem receiveStep_atStreamPosition {s : State} (h : atStreamPosition s) : atStreamPosition (receiveStep s) := by
  have hp := receiveBytes_atStreamPosition h
  unfold receiveStep
  dsimp only
  split <;> exact hp

theorem receiveStep_memInv {s : State} (h : MemInv s) : MemInv (receiveStep s) := by
  have hw : MemInv (receiveBytes s.inWin s) := by
    rw [receiveBytes_eq]
    exact receiveAll_wf _ h
  unfold receiveStep
  dsimp only
  split <;> exact hw

theorem receiveStep_inv {s : State} (h : Inv s) (hm : s.mode = .receiveStream) : Inv (receiveStep s) := by
  obtain ⟨hbus, -, hpos⟩ := (modeInv_receiveStream hm).1 h.mode
  obtain ⟨ws, e, hcase⟩ := receiveStep_cases s
  have hlast : lastCfg (writeEvents ws ++ s.hist) = s.busCfg := (lastCfg_writeEvents _ _).trans h.hist.1
  have hord : busOrdered (writeEvents ws ++ s.hist) = true := busOrdered_writeEvents (h.hist.1.trans hbus) h.hist.2
  refine {
    mode    := ?_
    stall   := by rw [e]; exact h.stall
    windows := by
      rw [e]
      exact ⟨by simpa using Nat.le_trans (Nat.sub_le _ _) h.windows.1, h.windows.2⟩
    guards  := fun _ => by rw [receiveStep_flags]; exact h.guards (by simp [hm])
    hist    := ?_
    mem     := receiveStep_memInv h.mem }
  · rcases hcase with ⟨hmode, hbus', -, hrem⟩ | ⟨hmode, hbus', -⟩
    · have hone : 1 ≤ (receiveStep s).remain.toNat :=
        Nat.one_le_iff_ne_zero.2 fun hz => hrem (BitVec.eq_of_toNat_eq hz)
      exact (modeInv_receiveStream (hmode.trans hm)).2
        ⟨hbus'.trans hbus, hone, receiveStep_atStreamPosition hpos⟩
    · exact (modeInv_command hmode).2 hbus'
  · rcases hcase with ⟨-, hbus', hhist, -⟩ | ⟨-, hbus', hhist⟩
    · rw [HistInv, hhist, hbus']
      exact ⟨hlast, hord⟩
    · rw [HistInv, hhist, hbus']
      exact ⟨rfl, hord⟩

theorem completeStream_inv {s : State} (h : Inv s) : Inv (completeStream s) :=
  { h with
    mode   := rfl
    guards := streamGuardInv_of_command rfl
    hist   := h.hist.setBusCfg .idle }

theorem afterChunk_atStreamPosition {s : State} (h : atStreamPosition s) : atStreamPosition (afterChunk s) := by
  have hn : chunkLength s ≤ s.remain.toNat := Nat.min_le_left _ _
  obtain ⟨hle, hcur⟩ := h
  obtain ⟨hc, -, hbytes⟩ := transmitBytes_inside (s := s) (n := chunkLength s) (by omega)
  exact atStreamPosition_of_progress (t := afterChunk s) ⟨hle, hcur⟩ hn hc (by simp only [afterChunk]; rw [hbytes])

theorem afterChunk_inv {s : State} (h : Inv s) (hm : s.mode = .transmitStream) : Inv (afterChunk s) := by
  obtain ⟨hbus, hpos⟩ := (modeInv_transmitStream hm).1 h.mode
  obtain ⟨as, e⟩ := afterChunk_state s
  have hmode : ModeInv (afterChunk s) :=
    (modeInv_transmitStream (by rw [e]; exact hm)).2 ⟨by rw [e]; exact hbus, afterChunk_atStreamPosition hpos⟩
  rw [e] at hmode ⊢
  exact { h with
    mode := hmode
    hist := ⟨(lastCfg_readEvents _ _ _).trans h.hist.1, busOrdered_readEvents (h.hist.1.trans hbus) h.hist.2⟩ }

theorem transmitStep_inv {s t : State} (h : Inv s) (hm : s.mode = .transmitStream) (ht : transmitStep s = .next t) :
    Inv t := by
  rcases transmitStep_next ht with ⟨-, rfl⟩ | ⟨-, rfl⟩ | ⟨-, -, hl, e, -⟩
  · exact completeStream_inv h
  · exact h
  · rw [e]
    exact (afterChunk_inv h hm).setOutWin (by rwa [(afterChunk_keepsOwnFields s).cfg])

/-! ### The iteration -/

theorem modeStep_inv {s t : State} (h : Inv s) (ht : modeStep s = .next t) : Inv t := by
  rcases modeStep_next ht with ⟨hm, hcommand⟩ | ⟨hm, rfl⟩ | ⟨hm, htransmit⟩
  · rcases hcommand with rfl | rfl | ⟨e, hl⟩ | ⟨_, i, -, -, hg, hl, rfl⟩
    · exact h
    · exact afterFeed_inv h
    · rw [e]
      exact (afterFeed_inv h).setOutWin hl
    · obtain ⟨-, hcfg, -⟩ := commandEffect_keeps i (afterFeed s)
      exact (commandEffect_inv (afterFeed_inv h) hm hg).setOutWin (hl.trans_eq (congrArg Config.outCap hcfg.symm))
  · exact receiveStep_inv h hm
  · exact transmitStep_inv h hm htransmit

/-- Where no Reset is taken the count of a tick stays within STALL's bound (R41, R206). -/
theorem ticked_stallInv {s : State} (h : StallInv s) (hno : NoReset s) : StallInv (ticked s) := by
  unfold ticked
  split
  · exact hno.2 ‹_›
  · exact h

theorem ticked_inv {s : State} (h : Inv s) (hno : NoReset s) : Inv (ticked s) := by
  have hstall := ticked_stallInv h.stall hno
  rw [ticked_state] at hstall ⊢
  exact { h with stall := hstall }

/-- Reset leaves a state with the invariant, whatever the latches hold. -/
theorem resetState_inv {s : State} (h : Inv s) (rst tick : Bool) :
    Inv (resetState { s with rstLatch := rst, tickLatch := tick }) where
  mode    := rfl
  stall   := Nat.zero_le _
  windows := ⟨Nat.zero_le _, Nat.zero_le _⟩
  guards  := streamGuardInv_of_command rfl
  hist    := ⟨rfl, h.hist.2⟩
  mem     := h.mem

theorem seqPart_inv {s t : State} (h : Inv s) (ht : seqPart s = .next t) : Inv t := by
  rcases seqPart_cases s with ⟨hno, e⟩ | ⟨rst, tick, e⟩
  · exact modeStep_inv (ticked_inv h hno) (e.symm.trans ht)
  · cases e.symm.trans ht
    exact resetState_inv h rst tick

theorem startIteration_inv {s : State} (h : Inv s) : Inv (startIteration s) := by
  have hmem : MemInv (startIteration s) := applyEvents_wf _ h.mem
  rw [startIteration_state] at hmem ⊢
  exact { h with mem := hmem }

theorem environment_inv {s : State} (h : Inv s) (d : Draw) : Inv (environment d s) := by
  have hwin := environment_windows (d := d) h.windows
  rw [environment_state] at hwin ⊢
  exact { h with windows := hwin }

/-- Settles O53: the start of the iteration, the sequencer's part and the environment's part each keep the
invariant. -/
theorem stepKeepsTheInvariant : Obligations.StepKeepsTheInvariant := by
  unfold Obligations.StepKeepsTheInvariant
  intro s t h hstep
  obtain ⟨x, hx, rfl⟩ := step_next.1 hstep
  exact environment_inv (seqPart_inv (startIteration_inv h) hx) _

end Sys2Proof.Machine
end

section
/-! PROOFS. The memory space: the order of a block's bus addresses (R51, R150, R151), and which bytes the GB can
change between two iterations (R58). -/

namespace Sys2Proof.Machine

/-! ### Addresses -/

/-- Settles O33: a bus address is block and offset put together, and a block's row goes through its offsets in
order. -/
theorem blockAddressesAscend : Obligations.BlockAddressesAscend := by
  unfold Obligations.BlockAddressesAscend
  intro h o
  refine ⟨busAddr_toNat h o, ?_⟩
  rw [blockAddrs, blockSize, List.map_map]
  exact List.map_congr_left fun k hk => busAddr_ofNat_toNat h (List.mem_range.1 hk)

/-! ### Writes of the GB -/

theorem applyEvent_gbWrite_mem {s : State} (hp : s.flags.p = true) (x : BitVec 15) (v : Byte) :
    (applyEvent (.gbWrite x v) s).mem = s.mem.write x.toNat v := by
  simp [applyEvent, hp]

/-- An event keeps MEM, or it is a write of the GB with P = 1. -/
theorem applyEvent_mem_cases (e : EnvEvent) (s : State) :
    (applyEvent e s).mem = s.mem ∨
      ∃ x v, e = .gbWrite x v ∧ s.flags.p = true ∧ (applyEvent e s).mem = s.mem.write x.toNat v := by
  cases e with
  | gbWrite x v =>
    by_cases hp : s.flags.p = true
    · exact .inr ⟨x, v, rfl, hp, applyEvent_gbWrite_mem hp x v⟩
    · exact .inl (by simp [applyEvent, hp])
  | _ => exact .inl rfl

theorem applyEvent_flags (e : EnvEvent) (s : State) : (applyEvent e s).flags = s.flags := by
  rw [applyEvent_state]

theorem applyEvents_flags (es : List EnvEvent) (s : State) : (applyEvents es s).flags = s.flags := by
  rw [applyEvents_state]

theorem applyEvents_mem_of_p_false (es : List EnvEvent) {s : State} (hp : s.flags.p = false) :
    (applyEvents es s).mem = s.mem := by
  induction es generalizing s with
  | nil => rfl
  | cons e es ih =>
    rw [applyEvents, ih (by rw [applyEvent_flags, hp])]
    rcases applyEvent_mem_cases e s with hkeep | ⟨-, -, -, hp', -⟩
    · exact hkeep
    · simp [hp] at hp'

theorem applyEvents_read_of_unaddressed {es : List EnvEvent} {a : Nat}
    (h : ∀ x v, EnvEvent.gbWrite x v ∈ es → x.toNat ≠ a) (s : State) :
    (applyEvents es s).mem.read a = s.mem.read a := by
  induction es generalizing s with
  | nil => rfl
  | cons e es ih =>
    rw [applyEvents, ih fun x v hx => h x v (List.mem_cons_of_mem e hx)]
    rcases applyEvent_mem_cases e s with hkeep | ⟨x, v, rfl, -, hwrite⟩
    · rw [hkeep]
    · rw [hwrite, Memory.read_write_other _ _ (h x v List.mem_cons_self).symm]

theorem applyEvents_read_last_gbWrite (es : List EnvEvent) {s : State} (hp : s.flags.p = true) (x : BitVec 15)
    (v : Byte) : (applyEvents (es ++ [.gbWrite x v]) s).mem.read x.toNat = v := by
  have hp' : (applyEvents es s).flags.p = true := by rw [applyEvents_flags, hp]
  rw [applyEvents_append, applyEvents, applyEvents, applyEvent_gbWrite_mem hp', Memory.read_write_same]

/-- Settles O47: the one event that writes MEM is a write of the GB with P = 1, and no event changes P. -/
theorem gbWritesOnlyInPassthrough : Obligations.GbWritesOnlyInPassthrough := by
  unfold Obligations.GbWritesOnlyInPassthrough
  intro s es a
  exact ⟨applyEvents_mem_of_p_false es, fun h => applyEvents_read_of_unaddressed h s,
    fun x v hp => applyEvents_read_last_gbWrite es hp x v⟩

end Sys2Proof.Machine
end

section
/-! PROOFS. Requests and commands (R71, R74 to R78): a request decodes to a command exactly where the command is
well-formed and the request is its own, `admits` accepts exactly the lengths of the map, and what it rejects is
answered with the protocol error (R81, R110). -/

namespace Sys2Proof.Machine

/-! ### Decoding and encoding -/

theorem decodeRequest_toRequest {i : Instr} (hw : i.wellFormed = true) : decodeRequest (toRequest i) = .ok i := by
  cases i with
  | ping p =>
    have hl : p.length ≤ pingMax := by simpa [Instr.wellFormed] using hw
    exact if_pos hl
  | writeBlock h data =>
    have hl : data.length = blockSize := by simpa [Instr.wellFormed] using hw
    exact if_pos hl
  | _ => rfl

/-- Settles O19: the bytes of a well-formed command are split into its request, which its row of the decoder reads. -/
theorem decodeInvertsEncode : Obligations.DecodeInvertsEncode := by
  unfold Obligations.DecodeInvertsEncode
  exact fun i hw => decodeRequest_toRequest (i := i) hw

theorem toRequest_eq {i : Instr} {r : Request} (hop : r.op.toNat = (opcode i).toNat) (hp : r.payload = payload i) :
    toRequest i = r := by
  rw [toRequest, ← BitVec.eq_of_toNat_eq hop, ← hp]

/-- The converse of `decodeRequest_toRequest`, one case per row of the decoder. -/
theorem toRequest_of_decodeRequest {r : Request} {i : Instr} (h : decodeRequest r = .ok i) :
    i.wellFormed = true ∧ toRequest i = r := by
  unfold decodeRequest at h
  split at h
  case h_1 hop =>
    split at h
    next hl =>
      cases h
      exact ⟨decide_eq_true hl, toRequest_eq hop rfl⟩
    next => cases h
  case h_8 hop hp =>
    split at h
    next hl =>
      cases h
      exact ⟨decide_eq_true hl, toRequest_eq hop hp⟩
    next => cases h
  case h_11 => split at h <;> cases h
  all_goals
    next hop hp =>
    cases h
    exact ⟨rfl, toRequest_eq hop hp⟩

/-- Settles O20: bytes that decode have an opcode, and the command they decode to has their request. -/
theorem decodedRequestsEncodeBack : Obligations.DecodedRequestsEncodeBack := by
  unfold Obligations.DecodedRequestsEncodeBack
  intro bs i h
  cases bs with
  | nil => cases h
  | cons op p =>
    obtain ⟨hw, hreq⟩ := toRequest_of_decodeRequest (r := ⟨op, p⟩) h
    obtain ⟨hop, hp⟩ := Request.mk.inj hreq
    exact ⟨hw, by rw [encode, hop, hp]⟩

/-- Settles O21: each row is the round trip of its command, and 0x0B is in no row. -/
theorem requestBytesOfTheMapDecode : Obligations.RequestBytesOfTheMapDecode := by
  unfold Obligations.RequestBytesOfTheMapDecode
  exact ⟨decodeInvertsEncode (.ping [0xDE, 0xAD]) rfl, decodeInvertsEncode .version rfl,
    decodeInvertsEncode .status rfl, decodeInvertsEncode (.setUnlocked 0x01) rfl,
    decodeInvertsEncode (.setPassthrough 0x01) rfl, decodeInvertsEncode (.setReset 0x00) rfl,
    decodeInvertsEncode (.readBlock 0x7F) rfl,
    fun h data hl => decodeInvertsEncode (.writeBlock h data) (decide_eq_true hl),
    decodeInvertsEncode .rxStream rfl, decodeInvertsEncode .txStream rfl, rfl⟩

/-! ### Admitted lengths -/

/-- The pairs of opcode and length the map admits (R77). -/
theorem admits_iff (op : Byte) (n : Nat) : admits op n = true ↔
    (op = 0x01 ∧ n ≤ 8) ∨ ((op = 0x02 ∨ op = 0x03 ∨ op = 0x09 ∨ op = 0x0A) ∧ n = 0) ∨
      ((op = 0x04 ∨ op = 0x05 ∨ op = 0x06 ∨ op = 0x07) ∧ n = 1) ∨ (op = 0x08 ∧ n = 257) := by
  simp only [← BitVec.toNat_inj, BitVec.reduceToNat]
  unfold admits
  split
  case h_11 => grind
  all_goals
    simp only [decide_eq_true_eq, pingMax, blockSize]
    omega

theorem encodedShape (i : Instr) : Laws.EncodedShape.Statement i := by
  cases i with
  | ping p => exact Laws.EncodedShape.ping p
  | version => exact Laws.EncodedShape.version
  | status => exact Laws.EncodedShape.status
  | setUnlocked b => exact Laws.EncodedShape.setUnlocked b
  | setPassthrough b => exact Laws.EncodedShape.setPassthrough b
  | setReset b => exact Laws.EncodedShape.setReset b
  | readBlock h => exact Laws.EncodedShape.readBlock h
  | writeBlock h data => exact Laws.EncodedShape.writeBlock h data
  | rxStream => exact Laws.EncodedShape.rxStream
  | txStream => exact Laws.EncodedShape.txStream

theorem admits_of_wellFormed {i : Instr} (hw : i.wellFormed = true) :
    admits (opcode i) (payload i).length = true := by
  obtain ⟨p, e, hadm⟩ := encodedShape i
  obtain ⟨-, rfl⟩ := List.cons.inj e
  exact hadm hw

theorem admits_of_decodeRequest {op : Byte} {p : List Byte} {i : Instr} (h : decodeRequest ⟨op, p⟩ = .ok i) :
    admits op p.length = true := by
  obtain ⟨hw, hreq⟩ := toRequest_of_decodeRequest h
  obtain ⟨rfl, rfl⟩ := Request.mk.inj hreq
  exact admits_of_wellFormed hw

theorem exists_decodeRequest_of_admits {op : Byte} {p : List Byte} (h : admits op p.length = true) :
    ∃ i, decodeRequest ⟨op, p⟩ = .ok i := by
  rcases (admits_iff op p.length).1 h with ⟨rfl, hl⟩ | ⟨hop, hl⟩ | ⟨hop, hl⟩ | ⟨rfl, hl⟩
  · exact ⟨.ping p, decodeRequest_toRequest (i := .ping p) (decide_eq_true hl)⟩
  · obtain rfl := List.length_eq_zero_iff.1 hl
    rcases hop with rfl | rfl | rfl | rfl
    exacts [⟨.version, rfl⟩, ⟨.status, rfl⟩, ⟨.rxStream, rfl⟩, ⟨.txStream, rfl⟩]
  · obtain ⟨b, rfl⟩ := List.length_eq_one_iff.1 hl
    rcases hop with rfl | rfl | rfl | rfl
    exacts [⟨.setUnlocked b, rfl⟩, ⟨.setPassthrough b, rfl⟩, ⟨.setReset b, rfl⟩, ⟨.readBlock b, rfl⟩]
  · obtain ⟨b, data, rfl⟩ := List.exists_cons_of_length_eq_add_one hl
    exact ⟨.writeBlock b data,
      decodeRequest_toRequest (i := .writeBlock b data) (decide_eq_true (Nat.succ.inj hl))⟩

/-- Settles O18: the map written out, and that the decoder accepts what `admits` accepts. -/
theorem admittedRequestsAreTheCommands : Obligations.AdmittedRequestsAreTheCommands := by
  unfold Obligations.AdmittedRequestsAreTheCommands
  exact fun op p => ⟨admits_iff op p.length, fun ⟨_, h⟩ => admits_of_decodeRequest h, exists_decodeRequest_of_admits⟩

/-! ### The protocol error -/

theorem admits_of_unrecognized {op : Byte} (h : op.toNat = 0 ∨ 0x0B ≤ op.toNat) (n : Nat) :
    admits op n = false := by
  rw [← Bool.not_eq_true, admits_iff]
  simp only [← BitVec.toNat_inj, BitVec.reduceToNat]
  omega

theorem dispatch_of_not_admits {op : Byte} {p : List Byte} (h : admits op p.length = false) (s : State) :
    dispatch ⟨op, p⟩ s = takeCause (.protocol op) s := by
  rcases dispatch_cases ⟨op, p⟩ s with ⟨i, hdec, -⟩ | ⟨_, -, e⟩
  · rw [admits_of_decodeRequest hdec] at h
    cases h
  · exact e

/-- Settles O15: in each of the three cases `admits` rejects the request, and an error only responds. -/
theorem unadmittedRequestsGetTheProtocolError : Obligations.UnadmittedRequestsGetTheProtocolError := by
  unfold Obligations.UnadmittedRequestsGetTheProtocolError
  intro s op p h hcan
  have hadm : admits op p.length = false := by
    rcases h with h | h | h
    exacts [admits_of_unrecognized (.inl h) _, admits_of_unrecognized (.inr h) _, h]
  rw [dispatch_of_not_admits hadm]
  exact takeCause_of_canRespond rfl hcan

theorem extractLsb'_four_toNat (b : Byte) : (b.extractLsb' 4 4).toNat = b.toNat / 16 := by
  rw [BitVec.extractLsb'_toNat, Nat.shiftRight_eq_div_pow]
  omega

theorem extractLsb'_zero_toNat (b : Byte) : (b.extractLsb' 0 4).toNat = b.toNat % 16 := by
  rw [BitVec.extractLsb'_toNat, Nat.shiftRight_zero]

/-- Settles O16: the two digits are those of the opcode's high and low four bits (D25). -/
theorem protocolErrorMessageBytes : Obligations.ProtocolErrorMessageBytes := by
  unfold Obligations.ProtocolErrorMessageBytes
  intro op
  rw [protocolText, hex2, hexDigit, hexDigit, extractLsb'_four_toNat, extractLsb'_zero_toNat]
  rfl

end Sys2Proof.Machine
end

section
/-! PROOFS. Whole streams (R162 to R168): the receive steps store the bytes that arrive one after the other from
address 0 on, the transmit steps send the bytes of MEM in the same order, however either is cut into chunks. -/

namespace Sys2Proof.Machine

/-! ### A row of writes at the cursor -/

section
variable {s : State} {bs : List Byte} (h : (cursor s).toNat + bs.length ≤ spaceSize)
include h

theorem lowAddr_zip_cursorAddrs : ((cursorAddrs s bs.length).zip bs).map (fun w => lowAddr w.1) =
    (List.range bs.length).map (fun k => (cursor s).toNat + k) := by
  rw [← lowAddr_cursorAddrs h]
  conv_rhs => rw [← List.map_fst_zip (l₂ := bs) (cursorAddrs_length s bs.length).le, List.map_map]
  rfl

theorem read_writeAll_cursorAddrs_inside (m : Memory) {k : Nat} (hk : k < bs.length) :
    (m.writeAll ((cursorAddrs s bs.length).zip bs)).read ((cursor s).toNat + k) = bs[k] := by
  have haddrs := lowAddr_zip_cursorAddrs h
  have hnodup : (((cursorAddrs s bs.length).zip bs).map (fun w => lowAddr w.1)).Nodup := by
    rw [haddrs]
    exact List.nodup_range.map fun _ _ => Nat.add_left_cancel
  have hlen : k < ((cursorAddrs s bs.length).zip bs).length := by simpa using hk
  have hread := Memory.read_writeAll_mem hnodup m (List.getElem_mem hlen)
  have hlow : lowAddr ((cursorAddrs s bs.length).zip bs)[k].1 = (cursor s).toNat + k := by
    simpa [hk] using congrArg (fun l => l[k]?) haddrs
  rwa [hlow, List.getElem_zip] at hread

theorem read_writeAll_cursorAddrs_below (m : Memory) {a : Nat} (ha : a < (cursor s).toNat) :
    (m.writeAll ((cursorAddrs s bs.length).zip bs)).read a = m.read a := by
  refine Memory.read_writeAll_other (fun w hw e => ?_) m
  have hmem := List.mem_map_of_mem (f := fun w : Addr × Byte => lowAddr w.1) hw
  rw [lowAddr_zip_cursorAddrs h] at hmem
  obtain ⟨k, -, hk⟩ := List.mem_map.1 hmem
  omega

end

/-! ### Receiving -/

/-- Completing a stream keeps the cursor and MEM, so the step leaves what the loop over IN leaves. -/
theorem receiveStep_cursor_mem (s : State) : cursor (receiveStep s) = cursor (receiveBytes s.inWin s) ∧
    (receiveStep s).mem = (receiveBytes s.inWin s).mem := by
  unfold receiveStep
  dsimp only
  split <;> exact ⟨rfl, rfl⟩

theorem receiveStep_of_fits {s : State} (hpos : atStreamPosition s) (hfit : s.inWin.length ≤ s.remain.toNat) :
    (cursor (receiveStep s)).toNat = (cursor s).toNat + s.inWin.length ∧
      (receiveStep s).mem = s.mem.writeAll ((cursorAddrs s s.inWin.length).zip s.inWin) := by
  obtain ⟨hle, hcur⟩ := hpos
  obtain ⟨hc, hall⟩ := receiveAll_inside (s := s) (bs := s.inWin) (by omega)
  obtain ⟨ec, em⟩ := receiveStep_cursor_mem s
  rw [ec, em, receiveBytes_eq, List.take_of_length_le hfit]
  exact ⟨hc, by rw [hall]⟩

theorem receiveStep_done {s : State} (h : (receiveStep s).remain = 0) :
    (receiveStep s).mode = .command ∧ (receiveStep s).busCfg = .idle := by
  obtain ⟨_, -, ⟨-, -, -, hrem⟩ | ⟨hmode, hbus, -⟩⟩ := receiveStep_cases s
  · exact absurd h hrem
  · exact ⟨hmode, hbus⟩

/-- Where a receive stream stands when `bytes` have arrived since it began: they are MEM's bytes from address 0 on,
and once all have arrived the stream is complete (R162, R163). -/
structure ReceivedImage (bytes : List Byte) (s : State) : Prop where
  position : atStreamPosition s
  count    : (cursor s).toNat = bytes.length
  image    : ∀ k, ∀ hk : k < bytes.length, s.mem.read k = bytes[k]
  done     : s.remain = 0 → s.mode = .command ∧ s.busCfg = .idle

/-- What is in IN has no part in the image. -/
theorem receivedImage_setInWin {bytes : List Byte} {s : State} (h : ReceivedImage bytes s) (c : List Byte) :
    ReceivedImage bytes { s with inWin := c } :=
  ⟨h.position, h.count, h.image, h.done⟩

theorem receivedImage_receiveStep {bytes : List Byte} {s : State} (h : ReceivedImage bytes s)
    (hlen : (bytes ++ s.inWin).length ≤ spaceSize) : ReceivedImage (bytes ++ s.inWin) (receiveStep s) := by
  obtain ⟨hle, hcur⟩ := h.position
  have hcount := h.count
  rw [List.length_append] at hlen
  have hin : (cursor s).toNat + s.inWin.length ≤ spaceSize := by omega
  obtain ⟨hc, hmem⟩ := receiveStep_of_fits h.position (by omega)
  refine ⟨receiveStep_atStreamPosition h.position, by rw [hc, hcount, List.length_append], fun k hk => ?_,
    receiveStep_done⟩
  rw [hmem]
  rcases Nat.lt_or_ge k bytes.length with hold | hnew
  · rw [read_writeAll_cursorAddrs_below hin _ (hold.trans_eq hcount.symm), List.getElem_append_left hold]
    exact h.image k hold
  · obtain ⟨j, rfl⟩ := Nat.exists_eq_add_of_le hnew
    have hj : j < s.inWin.length := by
      rw [List.length_append] at hk
      omega
    simpa [hcount] using read_writeAll_cursorAddrs_inside hin s.mem hj

theorem receivedImage_foldl {bytes : List Byte} {s : State} (h : ReceivedImage bytes s) (chunks : List (List Byte))
    (hlen : (bytes ++ chunks.flatten).length ≤ spaceSize) :
    ReceivedImage (bytes ++ chunks.flatten) (chunks.foldl (fun x c => receiveStep { x with inWin := c }) s) := by
  induction chunks generalizing bytes s with
  | nil => rwa [List.flatten_nil, List.append_nil]
  | cons c cs ih =>
    rw [List.flatten_cons, ← List.append_assoc] at hlen ⊢
    have hc : (bytes ++ c).length ≤ spaceSize := by
      rw [List.length_append] at hlen
      omega
    exact ih (receivedImage_receiveStep (receivedImage_setInWin h c) hc) hlen

theorem receivedImage_nil {s : State} (hr : s.remain = 32768) (hc : cursor s = 0) : ReceivedImage [] s where
  position := by rw [atStreamPosition, hr, hc]; exact ⟨Nat.le_refl _, rfl⟩
  count    := by rw [hc]; rfl
  image    := fun _ hk => absurd hk (Nat.not_lt_zero _)
  done     := fun h0 => absurd (hr.symm.trans h0) (by decide)

/-- Settles O39: the image grows by each chunk, and with 32768 bytes in it REMAIN is 0 (D16). -/
theorem receiveStreamStoresTheWholeImage : Obligations.ReceiveStreamStoresTheWholeImage := by
  unfold Obligations.ReceiveStreamStoresTheWholeImage
  intro s t chunks _ hr hc hlen ht
  have h : ReceivedImage chunks.flatten t := by
    rw [ht]
    exact receivedImage_foldl (receivedImage_nil hr hc) chunks hlen.le
  obtain ⟨hle, hcur⟩ := h.position
  have hcount : (cursor t).toNat = 32768 := h.count.trans hlen
  simp only [spaceSize] at hle hcur
  have hrem : t.remain = 0 := BitVec.eq_of_toNat_eq (show t.remain.toNat = 0 by omega)
  obtain ⟨hmode, hbus⟩ := h.done hrem
  exact ⟨hmode, hbus, BitVec.eq_of_toNat_eq hcount, hrem, h.image⟩

/-! ### Transmitting -/

/-- Where a transmit stream stands before a step that finds OUT empty. -/
structure ReadyToTransmit (s : State) : Prop where
  mode     : s.mode = .transmitStream
  position : atStreamPosition s
  drained  : s.outWin = []
  fits     : s.cfg.chunkMax ≤ s.cfg.outCap

/-- The `n` bytes of MEM from the cursor on. -/
def bytesFromCursor (s : State) (n : Nat) : List Byte := (List.range' (cursor s).toNat n).map s.mem.read

@[simp] theorem bytesFromCursor_length (s : State) (n : Nat) : (bytesFromCursor s n).length = n := by
  rw [bytesFromCursor, List.length_map, List.length_range']

theorem bytesFromCursor_add {s t : State} {m : Nat} (hmem : t.mem = s.mem)
    (hc : (cursor t).toNat = (cursor s).toNat + m) (n : Nat) :
    bytesFromCursor s (m + n) = bytesFromCursor s m ++ bytesFromCursor t n := by
  rw [bytesFromCursor, bytesFromCursor, bytesFromCursor, hmem, hc, ← List.map_append, List.range'_append_1]

theorem bytesAt_cursorAddrs {s : State} {n : Nat} (h : (cursor s).toNat + n ≤ spaceSize) :
    bytesAt s.mem (cursorAddrs s n) = bytesFromCursor s n := by
  have hmap : bytesAt s.mem (cursorAddrs s n) = ((cursorAddrs s n).map lowAddr).map s.mem.read := by
    rw [List.map_map]; rfl
  rw [hmap, lowAddr_cursorAddrs h, bytesFromCursor, List.range'_eq_map_range]

/-- The state after a chunk has been read and OUT has drained. -/
def afterDrainedChunk (s : State) : State := { afterChunk s with outWin := [] }

@[simp] theorem afterDrainedChunk_mem (s : State) : (afterDrainedChunk s).mem = s.mem := by
  obtain ⟨_, e⟩ := afterChunk_state s
  rw [afterDrainedChunk, e]

@[simp] theorem afterDrainedChunk_mode (s : State) : (afterDrainedChunk s).mode = s.mode := by
  obtain ⟨_, e⟩ := afterChunk_state s
  rw [afterDrainedChunk, e]

@[simp] theorem afterDrainedChunk_cfg (s : State) : (afterDrainedChunk s).cfg = s.cfg :=
  (afterChunk_keepsOwnFields s).cfg

@[simp] theorem afterDrainedChunk_remain (s : State) :
    (afterDrainedChunk s).remain.toNat = s.remain.toNat - chunkLength s := by
  have hn : chunkLength s ≤ s.remain.toNat := Nat.min_le_left _ _
  have hlt := s.remain.isLt
  obtain ⟨_, e, -⟩ := transmitBytes_state (chunkLength s) s
  simp only [afterDrainedChunk, afterChunk]
  rw [e]
  simp only [BitVec.toNat_sub, BitVec.toNat_ofNat]
  omega

section
variable {s : State} (h : ReadyToTransmit s)
include h

theorem chunk_inside_of_ready : (cursor s).toNat + chunkLength s ≤ spaceSize := by
  have hn : chunkLength s ≤ s.remain.toNat := Nat.min_le_left _ _
  obtain ⟨hle, hcur⟩ := h.position
  omega

theorem transmitStep_of_ready (hr : s.remain ≠ 0) :
    transmitStep s = .next { afterChunk s with outWin := bytesFromCursor s (chunkLength s) } := by
  obtain ⟨-, hbytes, -⟩ := transmitBytes_inside (chunk_inside_of_ready h)
  rw [bytesAt_cursorAddrs (chunk_inside_of_ready h)] at hbytes
  obtain ⟨_, e⟩ := afterChunk_state s
  rw [transmitStep, if_neg hr, if_neg (fun ho => ho h.drained), hbytes, outInstall_next]
  refine ⟨by rw [e]; exact h.drained, ?_, rfl⟩
  rw [e, bytesFromCursor_length]
  exact (Nat.min_le_right _ _).trans h.fits

theorem afterDrainedChunk_cursor :
    (cursor (afterDrainedChunk s)).toNat = (cursor s).toNat + chunkLength s :=
  (transmitBytes_inside (chunk_inside_of_ready h)).1

theorem afterDrainedChunk_ready : ReadyToTransmit (afterDrainedChunk s) where
  mode     := (afterDrainedChunk_mode s).trans h.mode
  position := afterChunk_atStreamPosition h.position
  drained  := rfl
  fits     := by rw [afterDrainedChunk_cfg]; exact h.fits

theorem drainedSteps_succ_of_ready (hr : s.remain ≠ 0) (n : Nat) :
    drainedSteps (n + 1) s =
      (bytesFromCursor s (chunkLength s) ++ (drainedSteps n (afterDrainedChunk s)).1,
        (drainedSteps n (afterDrainedChunk s)).2) := by
  have hstep : modeStep s = .next { afterChunk s with outWin := bytesFromCursor s (chunkLength s) } := by
    rw [modeStep, h.mode]
    exact transmitStep_of_ready h hr
  rw [drainedSteps, hstep]
  rfl

end

/-- `n` steps send the next `n * CHUNK_MAX` bytes, or what remains of the stream if the last chunk is a shorter
one (R164). -/
theorem drainedSteps_of_ready {n : Nat} {s : State} (h : ReadyToTransmit s)
    (hn : n * s.cfg.chunkMax < s.remain.toNat + s.cfg.chunkMax) :
    (drainedSteps n s).1 = bytesFromCursor s (min s.remain.toNat (n * s.cfg.chunkMax)) ∧
      (drainedSteps n s).2.remain.toNat = s.remain.toNat - n * s.cfg.chunkMax ∧
      (drainedSteps n s).2.mode = .transmitStream ∧ (drainedSteps n s).2.mem = s.mem := by
  induction n generalizing s with
  | zero => simp [drainedSteps, bytesFromCursor, h.mode]
  | succ n ih =>
    rw [Nat.succ_mul] at hn ⊢
    have hr : s.remain ≠ 0 := fun e => by
      have h0 : s.remain.toNat = 0 := congrArg BitVec.toNat e
      omega
    have hrem := afterDrainedChunk_remain s
    have hlen : chunkLength s = min s.remain.toNat s.cfg.chunkMax := rfl
    obtain ⟨hsent, hrest, hmode, hmem⟩ := ih (afterDrainedChunk_ready h) (by
      rw [hrem, afterDrainedChunk_cfg]
      omega)
    rw [afterDrainedChunk_cfg, hrem] at hsent hrest
    have hsplit : min s.remain.toNat (n * s.cfg.chunkMax + s.cfg.chunkMax) =
        chunkLength s + min (s.remain.toNat - chunkLength s) (n * s.cfg.chunkMax) := by omega
    rw [drainedSteps_succ_of_ready h hr, hsplit,
      bytesFromCursor_add (afterDrainedChunk_mem s) (afterDrainedChunk_cursor h)]
    exact ⟨by rw [hsent], hrest.trans (by omega), hmode, hmem.trans (afterDrainedChunk_mem s)⟩

/-- Settles O40: the `n` chunks cover the 32768 bytes, and only the last one may be shorter (D17). -/
theorem transmitStreamSendsTheWholeImage : Obligations.TransmitStreamSendsTheWholeImage := by
  unfold Obligations.TransmitStreamSendsTheWholeImage
  intro s n hm hr hc ho _ hfits hlast hcover
  have hrem : s.remain.toNat = 32768 := by rw [hr]; rfl
  have hcur : (cursor s).toNat = 0 := by rw [hc]; rfl
  have hready : ReadyToTransmit s := ⟨hm, ⟨hrem.le, by rw [hcur, hrem, Nat.sub_self]⟩, ho, hfits⟩
  have hn : n * s.cfg.chunkMax < s.remain.toNat + s.cfg.chunkMax := by
    rw [Nat.sub_one_mul] at hlast
    omega
  obtain ⟨hsent, hrest, hmode, hmem⟩ := drainedSteps_of_ready hready hn
  refine ⟨?_, BitVec.eq_of_toNat_eq (hrest.trans (by rw [hrem]; exact Nat.sub_eq_zero_of_le hcover)), hmode, hmem⟩
  rw [hsent, hrem, Nat.min_eq_left hcover, bytesFromCursor, hcur, ← List.range_eq_range']

end Sys2Proof.Machine
end

section
/-! PROOFS. The dispatcher (R100 to R108): an iteration without a Reset runs the mode step; the command step waits for
OUT, feeds the codec across chunks, and dispatches at most one request; an error only responds (R105); a stream feeds
the codec nothing. -/

namespace Sys2Proof.Machine

/-! ### Streams -/

@[simp] theorem receiveStep_dec (s : State) : (receiveStep s).dec = s.dec := by
  obtain ⟨_, e, -⟩ := receiveStep_cases s
  rw [e]

theorem transmitStep_dec {s t : State} (h : transmitStep s = .next t) : t.dec = s.dec := by
  rcases transmitStep_next h with ⟨-, rfl⟩ | ⟨-, rfl⟩ | ⟨-, -, -, e, -⟩
  · rfl
  · rfl
  · obtain ⟨_, eChunk⟩ := afterChunk_state s
    rw [e, eChunk]

theorem modeStep_stream_keeps {s t : State} (hm : s.mode ≠ .command) (h : modeStep s = .next t) :
    t.dec = s.dec ∧ t.flags = s.flags := by
  rcases modeStep_next h with ⟨hcommand, -⟩ | ⟨-, rfl⟩ | ⟨-, htransmit⟩
  · exact absurd hcommand hm
  · exact ⟨receiveStep_dec s, receiveStep_flags s⟩
  · exact ⟨transmitStep_dec htransmit, transmitStep_flags htransmit⟩

@[simp] theorem ticked_mode (s : State) : (ticked s).mode = s.mode := by rw [ticked_state]

@[simp] theorem ticked_dec (s : State) : (ticked s).dec = s.dec := by rw [ticked_state]

/-- Settles O26: without a Reset the sequencer's part is a mode step after the count of a tick, which both streams
answer without the codec. -/
theorem streamsDecodeNothing : Obligations.StreamsDecodeNothing := by
  unfold Obligations.StreamsDecodeNothing
  intro s t hm hno h
  rw [seqPart_noReset hno] at h
  simpa using modeStep_stream_keeps (by simpa using hm) h

/-! ### Feeding the codec -/

/-- A byte that completes no request hands the rest of IN to the decoder's next state (R102). -/
theorem feed_cons_of_incomplete {c : Codec} {d : DecState} {b : Byte} (h : (codecDecode c d b).2 = none)
    (bs : List Byte) : feed c d (b :: bs) = feed c (codecDecode c d b).1 bs := by
  rw [feed]
  split
  next hdec => rw [hdec] at h; cases h
  next hdec => rw [hdec]

/-- Where feeding completes no request, its first byte completes none. -/
theorem codecDecode_incomplete {c : Codec} {d : DecState} {b : Byte} {bs : List Byte}
    (h : (feed c d (b :: bs)).req = none) : (codecDecode c d b).2 = none := by
  rw [feed] at h
  split at h
  next => cases h
  next hdec => rw [hdec]

theorem feed_append_of_incomplete {c : Codec} {d : DecState} {xs : List Byte} (h : (feed c d xs).req = none)
    (ys : List Byte) : feed c d (xs ++ ys) = feed c (feed c d xs).dec ys := by
  induction xs generalizing d with
  | nil => rfl
  | cons b bs ih =>
    have hb := codecDecode_incomplete h
    rw [feed_cons_of_incomplete hb] at h
    rw [List.cons_append, feed_cons_of_incomplete hb, feed_cons_of_incomplete hb, ih h]

theorem feed_rest_of_incomplete {c : Codec} {d : DecState} {xs : List Byte} (h : (feed c d xs).req = none) :
    (feed c d xs).rest = [] := by
  induction xs generalizing d with
  | nil => rfl
  | cons b bs ih =>
    have hb := codecDecode_incomplete h
    rw [feed_cons_of_incomplete hb] at h ⊢
    exact ih h

/-- Settles O27: each byte of the first chunk completes nothing, so DEC carries all of it to the second. -/
theorem feedingContinuesAcrossChunks : Obligations.FeedingContinuesAcrossChunks := by
  unfold Obligations.FeedingContinuesAcrossChunks
  exact fun c d xs ys h => ⟨feed_append_of_incomplete h ys, feed_rest_of_incomplete h⟩

/-! ### Errors of dispatch -/

/-- A well-formed guarded command is its Ok response after its effect, behind its own guard (R104). -/
theorem exec_eq_guarded {i : Instr} {g : Guarded} (hg : guardOf i = some g) (hw : i.wellFormed = true) (s : State) :
    exec i s = guarded g (fun s => respondOk (opcode i) (okPayload i s) (commandEffect i s)) s := by
  cases i with
  | readBlock h => cases hg; rfl
  | writeBlock h data =>
    cases hg
    have hl : data.length = blockSize := by simpa [Instr.wellFormed] using hw
    exact if_pos hl
  | rxStream => cases hg; rfl
  | txStream => cases hg; rfl
  | _ => cases hg

/-- Settles O13: the guard's first check answers, whatever P holds (D12), and an error only responds (D31). -/
theorem guardedCommandsFailLocked : Obligations.GuardedCommandsFailLocked := by
  unfold Obligations.GuardedCommandsFailLocked
  intro s i g hg hw hu hcan
  rw [exec_eq_guarded hg hw, guarded_locked hu]
  exact takeCause_of_canRespond (c := .lock g) rfl hcan

/-- Settles O14: the guard's second check answers, and an error only responds (D31). -/
theorem guardedCommandsFailInPassthrough : Obligations.GuardedCommandsFailInPassthrough := by
  unfold Obligations.GuardedCommandsFailInPassthrough
  intro s i g hg hw hu hp hcan
  rw [exec_eq_guarded hg hw, guarded_passthrough hu hp]
  exact takeCause_of_canRespond (c := .passthrough g) rfl hcan

/-- Settles O17: a dispatch that changes more than OUT ran a decoded command whose guard held. -/
theorem failedRequestsHaveNoEffect : Obligations.FailedRequestsHaveNoEffect := by
  unfold Obligations.FailedRequestsHaveNoEffect
  intro s t r hfail h
  obtain ⟨-, -, honly | ⟨i, hdec, hguard, -⟩⟩ := dispatch_next h
  · exact honly
  · rcases hfail with ⟨e, herr⟩ | ⟨j, g, hdec', hg, hflags⟩
    · cases hdec.symm.trans herr
    · cases hdec.symm.trans hdec'
      obtain ⟨hu, hp⟩ := hguard (by simp [hg])
      simp [hu, hp] at hflags

theorem dispatch_of_decodes {r : Request} {i : Instr} (h : decodeRequest r = .ok i) (s : State) :
    dispatch r s = exec i s := by
  rw [dispatch, h]

theorem dispatch_of_not_decodes {r : Request} {e : DecodeError} (h : decodeRequest r = .error e) (s : State) :
    dispatch r s = takeCause (.protocol r.op) s := by
  rw [dispatch, h]

/-! ### The command step -/

theorem commandStep_of_outWin {s : State} (h : s.outWin ≠ []) : commandStep s = .next s := if_pos h

theorem commandStep_of_request {s : State} {r : Request} (ho : s.outWin = []) (hr : (fedFrom s).req = some r) :
    commandStep s = dispatch r (afterFeed s) := by
  simp [commandStep, ho, hr]

theorem commandStep_of_noRequest {s : State} (ho : s.outWin = []) (hr : (fedFrom s).req = none) :
    commandStep s = .next (afterFeed s) := by
  simp [commandStep, ho, hr]

/-- Without a request completed, nothing stays in IN. -/
theorem afterFeed_of_noRequest {s : State} (h : (fedFrom s).req = none) :
    afterFeed s = { s with dec := (feed s.cfg.codec s.dec s.inWin).dec, inWin := [] } := by
  have hrest : (fedFrom s).rest = [] := feed_rest_of_incomplete h
  rw [afterFeed, hrest]
  rfl

theorem modeStep_of_command {s : State} (h : s.mode = .command) : modeStep s = commandStep s := by
  rw [modeStep, h]

/-- Settles O25: a response in flight is what the command step tests first. -/
theorem undrainedResponseHoldsCommandMode : Obligations.UndrainedResponseHoldsCommandMode := by
  unfold Obligations.UndrainedResponseHoldsCommandMode
  intro s hm ho
  rw [modeStep_of_command hm, commandStep_of_outWin ho]

/-! ### The iteration -/

theorem ticked_of_noTick {s : State} (h : s.tickLatch = false) : ticked s = s := by
  simp [ticked, h]

theorem noReset_of_noLatch {s : State} (hr : s.rstLatch = false) (ht : s.tickLatch = false) : NoReset s :=
  ⟨hr, fun h => by simp [ht] at h⟩

/-- Settles O60: without a Reset the checks come to the count of a pending tick, and with none pending to nothing. -/
theorem iterationRunsTheModeStep : Obligations.IterationRunsTheModeStep := by
  unfold Obligations.IterationRunsTheModeStep
  refine fun s => ⟨rfl, seqPart_noReset, fun hr ht => ?_⟩
  rw [seqPart_noReset (noReset_of_noLatch hr ht), ticked_of_noTick ht]

/-- An iteration in Command mode without a Reset is the command step between the count and the environment (D4). -/
theorem step_of_command {s : State} (hno : NoReset (startIteration s))
    (hm : (ticked (startIteration s)).mode = .command) :
    step s = onNext (commandStep (ticked (startIteration s))) (environment (nextDraw s)) := by
  rw [← modeStep_of_command hm, ← seqPart_noReset hno]
  rfl

/-- Settles O23: the command step dispatches the completed request to the command it decodes to. -/
theorem stepRunsTheDecodedInstruction : Obligations.StepRunsTheDecodedInstruction := by
  unfold Obligations.StepRunsTheDecodedInstruction
  rintro s _ r i rfl hno hm ho hreq hdec
  rw [step_of_command hno hm, commandStep_of_request ho hreq, dispatch_of_decodes hdec]

/-- Settles O24: a completed request that is no command is dispatched to the protocol error; with none completed, the
command step only feeds. -/
theorem stepAnswersUndecodableRequests : Obligations.StepAnswersUndecodableRequests := by
  unfold Obligations.StepAnswersUndecodableRequests
  rintro s s₁ rfl hno hm
  rw [step_of_command hno hm]
  refine ⟨fun r e hreq herr hcan => ?_, fun ho hreq => ?_⟩
  · have hcan' : CanRespond (afterFeed (ticked (startIteration s))) 0xFE (protocolText r.op) := hcan
    rw [commandStep_of_request hcan.1 hreq, dispatch_of_not_decodes herr,
      takeCause_of_canRespond (c := .protocol r.op) rfl hcan']
    rfl
  · rw [commandStep_of_noRequest ho hreq, afterFeed_of_noRequest hreq]
    rfl

end Sys2Proof.Machine
end

section
/-! PROOFS. The information commands (R130 to R132): ping, version and status stand behind no guard and have no effect,
so each only responds; a ping of more than 8 bytes is no command (R77). -/

namespace Sys2Proof.Machine

/-- An information command (R130 to R132). -/
def IsInfoCommand (i : Instr) : Prop := (∃ p, i = .ping p) ∨ i = .version ∨ i = .status

theorem guardOf_of_infoCommand {i : Instr} (hi : IsInfoCommand i) : guardOf i = none := by
  rcases hi with ⟨p, rfl⟩ | rfl | rfl <;> rfl

theorem commandEffect_of_infoCommand {i : Instr} (hi : IsInfoCommand i) (s : State) : commandEffect i s = s := by
  rcases hi with ⟨p, rfl⟩ | rfl | rfl <;> rfl

/-- A well-formed information command answers its Ok response, whatever FLAGS holds. -/
theorem exec_of_infoCommand {i : Instr} {s : State} (hi : IsInfoCommand i) (hw : i.wellFormed = true)
    (hcan : CanRespond s 0xFF (okPayload i s)) : exec i s = .next (answered s 0xFF (okPayload i s)) := by
  rw [exec_ok hw (fun hg => absurd (guardOf_of_infoCommand hi) hg) hcan, commandEffect_of_infoCommand hi]

/-- Settles O1: a ping of at most 8 bytes is decoded to itself and only responds; a longer one is not admitted. -/
theorem pingEchoesItsPayload : Obligations.PingEchoesItsPayload := by
  unfold Obligations.PingEchoesItsPayload
  refine fun s p => ⟨fun hl hcan => ?_, fun hl hcan => ?_⟩
  · have hw : (Instr.ping p).wellFormed = true := decide_eq_true hl
    have hexec : exec (.ping p) s = .next (answered s 0xFF p) := exec_of_infoCommand (.inl ⟨p, rfl⟩) hw hcan
    exact ⟨hexec, (dispatch_of_decodes (decodeRequest_toRequest hw) s).trans hexec⟩
  · have hadm : admits 0x01 p.length = false := decide_eq_false (Nat.not_le.2 hl)
    exact unadmittedRequestsGetTheProtocolError s 0x01 p (.inr (.inr hadm)) hcan

/-- Settles O2: version has no effect, and its payload is the two version bytes, major first (D8). -/
theorem versionReportsMajorThenMinor : Obligations.VersionReportsMajorThenMinor := by
  unfold Obligations.VersionReportsMajorThenMinor
  exact fun _ => exec_of_infoCommand (i := .version) (.inr (.inl rfl)) rfl

/-- Settles O3: status has no effect, and its payload is one byte 0x00 or 0x01 for each of U, P, R (D9). -/
theorem statusReportsTheFlags : Obligations.StatusReportsTheFlags := by
  unfold Obligations.StatusReportsTheFlags
  rintro s _ rfl hcan
  exact exec_of_infoCommand (i := .status) (.inr (.inr rfl)) rfl hcan

/-- Settles O28: an answer comes from an error, which only responds, or follows an effect, which here is none. -/
theorem infoCommandsChangeOnlyOut : Obligations.InfoCommandsChangeOnlyOut := by
  unfold Obligations.InfoCommandsChangeOnlyOut
  intro s t i hi h
  have hout : t = { s with outWin := t.outWin } := by
    obtain ⟨-, -, honly | ⟨-, -, -, hans⟩⟩ := exec_next h
    · exact honly
    · rw [hans, commandEffect_of_infoCommand hi]
      rfl
  exact ⟨hout, fun a => by rw [hout]⟩

end Sys2Proof.Machine
end

section
/-! PROOFS. The flag commands (R140 to R142): none stands behind a guard, so each only has its effect, on its own flag
and the lines its rule names, and answers Ok with an empty payload (D7). -/

namespace Sys2Proof.Machine

/-! ### The flag byte and the passthrough lines -/

/-- The two clauses of R76 fix the bit of a flag byte. -/
theorem eq_flagBit {d : BoolDecode} {b : Byte} {v : Bool} (hnz : d = .nonZero → (v = true ↔ b ≠ 0x00))
    (hbit : d = .bit0 → v = b.getLsbD 0) : v = flagBit d b := by
  cases d with
  | nonZero => exact Bool.eq_iff_iff.2 ((hnz rfl).trans decide_eq_true_iff.symm)
  | bit0 => exact hbit rfl

/-- The two rows of `PT_LINES` fix the levels (R141). -/
theorem eq_ptLevels {c : PtLines} {v : Bool} {l : PtLevels} (henter : v = true → l = c.enter)
    (hleave : v = false → l = c.leave) : l = ptLevels c v := by
  cases v with
  | true => exact henter rfl
  | false => exact hleave rfl

/-! ### The answer -/

theorem exec_eq_respondOk_of_flagCommand {i : Instr} (hi : isFlagCommand i = true) (s : State) :
    exec i s = respondOk (opcode i) [] (commandEffect i s) := by
  cases i with
  | setUnlocked b => rfl
  | setPassthrough b => rfl
  | setReset b => rfl
  | _ => cases hi

/-- A flag command cannot fail: it answers a next state exactly where its empty Ok response fits. -/
theorem exec_flagCommand_next {i : Instr} (hi : isFlagCommand i = true) {s t : State} :
    exec i s = .next t ↔ CanRespond s 0xFF [] ∧ t = answered (commandEffect i s) 0xFF [] := by
  obtain ⟨hout, hcfg, -⟩ := commandEffect_keeps i s
  rw [exec_eq_respondOk_of_flagCommand hi, respondOk_next, canRespond_congr hout hcfg]

/-- Settles O4: the effect of set_unlocked is the write of U. -/
theorem setUnlockedWritesU : Obligations.SetUnlockedWritesU := by
  unfold Obligations.SetUnlockedWritesU
  intro s b v hnz hbit hcan
  obtain rfl := eq_flagBit hnz hbit
  exact (exec_flagCommand_next (i := .setUnlocked b) rfl).2 ⟨hcan, rfl⟩

/-- Settles O5: the effect of set_passthrough is the write of P and one write of the lines, with the levels of
PT_LINES (D15). -/
theorem setPassthroughWritesPAndLines : Obligations.SetPassthroughWritesPAndLines := by
  unfold Obligations.SetPassthroughWritesPAndLines
  intro s b v l hnz hbit henter hleave hcan
  obtain rfl := eq_ptLevels henter hleave
  obtain rfl := eq_flagBit hnz hbit
  exact (exec_flagCommand_next (i := .setPassthrough b) rfl).2 ⟨hcan, rfl⟩

/-- Settles O6: the effect of set_reset is the write of R and one write of the lines. -/
theorem setResetWritesRAndLine : Obligations.SetResetWritesRAndLine := by
  unfold Obligations.SetResetWritesRAndLine
  intro s b v hnz hbit hcan
  obtain rfl := eq_flagBit hnz hbit
  exact (exec_flagCommand_next (i := .setReset b) rfl).2 ⟨hcan, rfl⟩

/-- Settles O29: a next state of a flag command is its effect answered, and no effect reaches another field. -/
theorem flagCommandsChangeOnlyTheirFlagAndLines : Obligations.FlagCommandsChangeOnlyTheirFlagAndLines := by
  unfold Obligations.FlagCommandsChangeOnlyTheirFlagAndLines
  refine fun s t b => ⟨fun hu => ?_, fun hp => ?_, fun hr => ?_⟩
  · obtain ⟨-, rfl⟩ := (exec_flagCommand_next rfl).1 hu
    exact ⟨rfl, fun _ => rfl⟩
  · obtain ⟨-, rfl⟩ := (exec_flagCommand_next rfl).1 hp
    exact ⟨rfl, fun _ => rfl⟩
  · obtain ⟨-, rfl⟩ := (exec_flagCommand_next rfl).1 hr
    exact ⟨rfl, fun _ => rfl⟩

end Sys2Proof.Machine
end

section
/-! PROOFS. The block commands (R150, R151): what the 256 accesses of a block read, store and leave alone, for blocks
of the memory and under `Alias` (plain accesses), and above the memory under the default of EXT_HIGH (R55, D13). -/

namespace Sys2Proof.Machine

/-! ### The addresses of a block -/

theorem plainBus_of_mem_blockAddrs {s : State} {h : Byte} (hb : h.toNat < 128 ∨ s.cfg.extHigh = .mirror) {a : Addr}
    (ha : a ∈ blockAddrs h) : PlainBus s a :=
  hb.imp_left (blockAddrs_lt · ha)

theorem highBus_of_mem_blockAddrs {s : State} {h : Byte} (hh : 128 ≤ h.toNat) (hx : s.cfg.extHigh = .draw) {a : Addr}
    (ha : a ∈ blockAddrs h) : HighBus s a := by
  obtain ⟨o, ho, rfl⟩ := mem_blockAddrs ha
  refine ⟨?_, hx⟩
  rw [busAddr_ofNat_toNat h ho, spaceSize]
  omega

/-- The memory addresses under a block, in order (R51, R55). -/
theorem map_lowAddr_blockAddrs (h : Byte) :
    (blockAddrs h).map lowAddr = (List.range 256).map (fun o => 256 * (h.toNat % 128) + o) := by
  rw [blockAddrs, blockSize, List.map_map]
  exact List.map_congr_left fun o ho => lowAddr_busAddr h (List.mem_range.1 ho)

theorem bytesAt_blockAddrs (m : Memory) (h : Byte) :
    bytesAt m (blockAddrs h) = (List.range 256).map (fun o => m.read (256 * (h.toNat % 128) + o)) := by
  have hmap := congrArg (List.map m.read) (map_lowAddr_blockAddrs h)
  rwa [List.map_map, List.map_map] at hmap

theorem lowAddr_ne_of_outside {h : Byte} {a : Nat} (ha : ∀ o < 256, a ≠ 256 * (h.toNat % 128) + o) :
    ∀ x ∈ blockAddrs h, lowAddr x ≠ a := by
  rintro x hx rfl
  obtain ⟨o, ho, rfl⟩ := mem_blockAddrs hx
  exact ha o ho (lowAddr_busAddr h ho)

/-- The addresses under a block are distinct, so each byte stored there stays. -/
theorem read_writeAll_blockAddrs (m : Memory) (h : Byte) {vs : List Byte} (hl : vs.length = 256) {o : Nat}
    (ho : o < vs.length) : (m.writeAll ((blockAddrs h).zip vs)).read (256 * (h.toNat % 128) + o) = vs[o] := by
  have hfst : ((blockAddrs h).zip vs).map Prod.fst = blockAddrs h :=
    List.map_fst_zip ((blockAddrs_length h).trans hl.symm).le
  have hnodup := blockAddrs_nodup h
  rw [← hfst, List.map_map] at hnodup
  have hlen : o < ((blockAddrs h).zip vs).length := by
    rw [List.length_zip, blockAddrs_length]
    omega
  have hread := Memory.read_writeAll_mem hnodup m (List.getElem_mem hlen)
  rwa [List.getElem_zip, blockAddrs_getElem, lowAddr_busAddr h (hl ▸ ho)] at hread

/-! ### Free bytes -/

theorem getElem_freeBytes (s : State) {n o : Nat} (ho : o < (freeBytes s n).length) :
    (freeBytes s n)[o] = Config.freeByte (s.drawn + o) := by
  simp [freeBytes]

@[simp] theorem freeBytes_setBusCfg (s : State) (c : BusCfg) (n : Nat) : freeBytes (s.setBusCfg c) n = freeBytes s n :=
  rfl

/-! ### The bus work of a block command -/

theorem readBlockBus_plain {s : State} {h : Byte} (hb : h.toNat < 128 ∨ s.cfg.extHigh = .mirror) :
    (readBlockBus h s).1 = bytesAt s.mem (blockAddrs h) ∧ (readBlockBus h s).2.drawn = s.drawn := by
  have hplain : ∀ a ∈ blockAddrs h, PlainBus (s.setBusCfg .read) a := fun a ha => plainBus_of_mem_blockAddrs hb ha
  simp [readBlockBus, memReads_plain hplain, bytesAt]

theorem readBlockBus_high {s : State} {h : Byte} (hh : 128 ≤ h.toNat) (hx : s.cfg.extHigh = .draw) :
    (readBlockBus h s).1 = freeBytes s 256 ∧ (readBlockBus h s).2.drawn = s.drawn + 256 := by
  have hhigh : ∀ a ∈ blockAddrs h, HighBus (s.setBusCfg .read) a := fun a ha => highBus_of_mem_blockAddrs hh hx ha
  simp [readBlockBus, memReads_high hhigh]

theorem writeBlockBus_plain {s : State} {h : Byte} (hb : h.toNat < 128 ∨ s.cfg.extHigh = .mirror)
    (data : List Byte) : (writeBlockBus h data s).mem = s.mem.writeAll ((blockAddrs h).zip data) ∧
      (writeBlockBus h data s).drawn = s.drawn := by
  have hplain : ∀ w ∈ (blockAddrs h).zip data, PlainBus (s.setBusCfg .write) w.1 := fun w hw =>
    plainBus_of_mem_blockAddrs hb (List.of_mem_zip (a := w.1) (b := w.2) hw).1
  simp [writeBlockBus, memWrites_plain hplain]

theorem writeBlockBus_high {s : State} {h : Byte} (hh : 128 ≤ h.toNat) (hx : s.cfg.extHigh = .draw) {data : List Byte}
    (hl : data.length = 256) :
    (writeBlockBus h data s).mem = s.mem.writeAll ((blockAddrs h).zip (freeBytes s 256)) ∧
      (writeBlockBus h data s).drawn = s.drawn + 256 := by
  have hhigh : ∀ a ∈ blockAddrs h, HighBus (s.setBusCfg .write) a := fun a ha => highBus_of_mem_blockAddrs hh hx ha
  simp [writeBlockBus, memWrites_high hhigh (hl.trans (blockAddrs_length h).symm)]

/-! ### The answer -/

/-- With U = 1 and P = 0 a guarded command answers a next state exactly where its Ok response fits. -/
theorem exec_open_next {i : Instr} {g : Guarded} (hg : guardOf i = some g) (hw : i.wellFormed = true) {s t : State}
    (hu : s.flags.u = true) (hp : s.flags.p = false) : exec i s = .next t ↔
      CanRespond s 0xFF (okPayload i s) ∧ t = answered (commandEffect i s) 0xFF (okPayload i s) := by
  obtain ⟨hout, hcfg, -⟩ := commandEffect_keeps i s
  rw [exec_eq_guarded hg hw, guarded_open hu hp, respondOk_next, canRespond_congr hout hcfg]

/-- read_block with U = 1 and P = 0, given the bytes `d` its accesses return and the count `n` of free bytes drawn
after them. -/
theorem exec_readBlock_of_bus {s : State} {h : Byte} {d : List Byte} {n : Nat} (hu : s.flags.u = true)
    (hp : s.flags.p = false) (hbus : (readBlockBus h s).1 = d ∧ (readBlockBus h s).2.drawn = n)
    (hcan : CanRespond s 0xFF d) :
    exec (.readBlock h) s = .next { s with
      busCfg := .idle
      hist   := .cfg .idle :: (readEvents (blockAddrs h) d ++ .cfg .read :: s.hist)
      outWin := codecEncode s.cfg.codec 0xFF d
      drawn  := n } := by
  obtain ⟨rfl, rfl⟩ := hbus
  refine (exec_open_next (i := .readBlock h) rfl rfl hu hp).2 ⟨hcan, ?_⟩
  rw [commandEffect, okPayload, answered, readBlockBus_state]

theorem exec_writeBlock_next {s t : State} {h : Byte} {data : List Byte} (hu : s.flags.u = true)
    (hp : s.flags.p = false) (hl : data.length = 256) :
    exec (.writeBlock h data) s = .next t ↔
      CanRespond s 0xFF [] ∧ t = answered (writeBlockBus h data s) 0xFF [] :=
  exec_open_next (i := .writeBlock h data) rfl (decide_eq_true hl) hu hp

/-- write_block with U = 1 and P = 0, given the bytes `vs` its accesses leave in MEM and the count `n` of free bytes
drawn after them. -/
theorem exec_writeBlock_of_bus {s : State} {h : Byte} {data vs : List Byte} {n : Nat} (hu : s.flags.u = true)
    (hp : s.flags.p = false) (hl : data.length = 256) (hcan : CanRespond s 0xFF []) (hvs : vs.length = 256)
    (hbus : (writeBlockBus h data s).mem = s.mem.writeAll ((blockAddrs h).zip vs) ∧
      (writeBlockBus h data s).drawn = n) :
    ∃ t : State,
      exec (.writeBlock h data) s = .next t ∧
      (∀ o, ∀ ho : o < vs.length, t.mem.read (256 * (h.toNat % 128) + o) = vs[o]) ∧
      (∀ a, (∀ o < 256, a ≠ 256 * (h.toNat % 128) + o) → t.mem.read a = s.mem.read a) ∧
      t = { s with
        mem    := t.mem
        busCfg := .idle
        hist   := .cfg .idle :: (writeEvents ((blockAddrs h).zip data) ++ .cfg .write :: s.hist)
        outWin := codecEncode s.cfg.codec 0xFF []
        drawn  := n } := by
  obtain ⟨hmem, rfl⟩ := hbus
  refine ⟨_, (exec_writeBlock_next hu hp hl).2 ⟨hcan, rfl⟩, fun o ho => ?_, fun a ha => ?_, ?_⟩
  · exact (congrArg (Memory.read · _) hmem).trans (read_writeAll_blockAddrs s.mem h hvs ho)
  · exact writeBlockBus_read_other h data s (lowAddr_ne_of_outside ha)
  · rw [answered, writeBlockBus_state]

/-- Settles O7: plain reads return the bytes of MEM under the block. -/
theorem readBlockReturnsTheBlock : Obligations.ReadBlockReturnsTheBlock := by
  unfold Obligations.ReadBlockReturnsTheBlock
  intro s h d hu hp hb hd hcan
  rw [← bytesAt_blockAddrs] at hd
  subst hd
  exact exec_readBlock_of_bus hu hp (readBlockBus_plain hb) hcan

/-- Settles O8: each of the 256 reads takes the next free byte (D13). -/
theorem readBlockAboveTheSpaceDraws : Obligations.ReadBlockAboveTheSpaceDraws := by
  unfold Obligations.ReadBlockAboveTheSpaceDraws
  rintro s h _ hu hp hh hx rfl hcan
  exact exec_readBlock_of_bus hu hp (readBlockBus_high hh hx) hcan

/-- Settles O9: plain writes store the data bytes at the distinct addresses under the block. -/
theorem writeBlockStoresTheBlock : Obligations.WriteBlockStoresTheBlock := by
  unfold Obligations.WriteBlockStoresTheBlock
  exact fun s h data hu hp hb hl hcan => exec_writeBlock_of_bus hu hp hl hcan hl (writeBlockBus_plain hb data)

/-- Settles O10: each of the 256 writes stores the next free byte in place of the byte driven (D13). -/
theorem writeBlockAboveTheSpaceDraws : Obligations.WriteBlockAboveTheSpaceDraws := by
  unfold Obligations.WriteBlockAboveTheSpaceDraws
  intro s h data hu hp hh hx hl hcan
  obtain ⟨t, hexec, hstored, hrest⟩ :=
    exec_writeBlock_of_bus hu hp hl hcan (freeBytes_length s 256) (writeBlockBus_high hh hx hl)
  refine ⟨t, hexec, fun o ho => ?_, hrest⟩
  rw [hstored o (ho.trans_eq (freeBytes_length s 256).symm), getElem_freeBytes]

/-- Settles O41: the write stores the data at the addresses the read goes to, and keeps FLAGS and the parameters. -/
theorem readAfterWriteReturnsTheData : Obligations.ReadAfterWriteReturnsTheData := by
  unfold Obligations.ReadAfterWriteReturnsTheData
  intro s t h data hu hp hb hl hcan hexec
  have hOk : CanRespond s 0xFF [] := ((exec_writeBlock_next hu hp hl).1 hexec).1
  obtain ⟨t', hexec', hstored, -, hstate⟩ := writeBlockStoresTheBlock s h data hu hp hb hl hOk
  obtain rfl : t' = t := Host.Outcome.next.inj (hexec'.symm.trans hexec)
  have hflags : t'.flags = s.flags := by rw [hstate]
  have hcfg : t'.cfg = s.cfg := by rw [hstate]
  have hdata : data = (List.range 256).map (fun o => t'.mem.read (256 * (h.toNat % 128) + o)) :=
    List.ext_getElem (by simp [hl]) fun o ho _ => by simp [hstored o ho]
  have hread := readBlockReturnsTheBlock { t' with outWin := [] } h data (hflags ▸ hu) (hflags ▸ hp) (hcfg ▸ hb)
    hdata ⟨rfl, hcfg ▸ hcan.2⟩
  exact ⟨_, hread, by rw [hcfg]⟩

/-! ### Frames -/

/-- Settles O30: an answer comes from an error, which only responds, or follows the bus work of the reads. -/
theorem readBlockLeavesTheRest : Obligations.ReadBlockLeavesTheRest := by
  unfold Obligations.ReadBlockLeavesTheRest
  intro s t h hexec
  have hstate : t = { s with busCfg := t.busCfg, hist := t.hist, outWin := t.outWin, drawn := t.drawn } := by
    obtain ⟨-, -, honly | ⟨-, -, -, rfl⟩⟩ := exec_next hexec
    · rw [honly]
    · rw [commandEffect, answered, readBlockBus_state]
  exact ⟨hstate, fun a => by rw [hstate]⟩

/-- Settles O31: an answer comes from an error, which only responds, or follows the bus work of the writes. -/
theorem writeBlockLeavesTheRest : Obligations.WriteBlockLeavesTheRest := by
  unfold Obligations.WriteBlockLeavesTheRest
  intro s t h data hexec
  obtain ⟨-, -, honly | ⟨-, -, -, rfl⟩⟩ := exec_next hexec
  · rw [honly]
    exact ⟨rfl, fun _ _ => rfl⟩
  · refine ⟨?_, fun a ha => writeBlockBus_read_other h data s ha⟩
    rw [commandEffect, answered, writeBlockBus_state]

end Sys2Proof.Machine
end

section
/-! PROOFS. The stream commands (R160, R161), and one step of a stream (R162 to R166): what a receive step stores and
a transmit step sends, from the cursor on. -/

namespace Sys2Proof.Machine

/-! ### The commands -/

/-- Settles O11: with the guard open, rx_stream answers its empty Ok response (D7) after entering the stream. -/
theorem rxStreamEntersReceiveStream : Obligations.RxStreamEntersReceiveStream := by
  unfold Obligations.RxStreamEntersReceiveStream
  exact fun s hu hp hcan => (exec_open_next (i := .rxStream) rfl rfl hu hp).2 ⟨hcan, rfl⟩

/-- Settles O12: with the guard open, tx_stream answers its empty Ok response (D7) after entering the stream. -/
theorem txStreamEntersTransmitStream : Obligations.TxStreamEntersTransmitStream := by
  unfold Obligations.TxStreamEntersTransmitStream
  exact fun s hu hp hcan => (exec_open_next (i := .txStream) rfl rfl hu hp).2 ⟨hcan, rfl⟩

theorem commandEffect_of_streamCommand {i : Instr} (hi : i = .rxStream ∨ i = .txStream) (s : State) :
    ∃ m c, commandEffect i s = enterStream m c s := by
  rcases hi with rfl | rfl
  · exact ⟨.receiveStream, .write, rfl⟩
  · exact ⟨.transmitStream, .read, rfl⟩

/-- Settles O32: an answer comes from an error, which only responds, or follows the entry into a stream. -/
theorem streamCommandsLeaveTheRest : Obligations.StreamCommandsLeaveTheRest := by
  unfold Obligations.StreamCommandsLeaveTheRest
  intro s t i hi h
  obtain ⟨-, -, honly | ⟨-, -, -, rfl⟩⟩ := exec_next h
  · rw [honly]
    exact ⟨rfl, fun _ => rfl⟩
  · obtain ⟨m, c, e⟩ := commandEffect_of_streamCommand hi s
    rw [e]
    exact ⟨rfl, fun _ => rfl⟩

/-! ### The cursor -/

/-- The addition holds at the last address too, where both registers wrap to 0. -/
theorem cursor_advance (s : State) : cursor (advance s) = cursor s + 1 := by
  rcases Nat.lt_or_ge (cursor s).toNat 65535 with hlt | hge
  · exact cursor_advance_of_lt hlt
  · have hH := s.curH.isLt
    have hL := s.curL.isLt
    rw [cursor_toNat] at hge
    have hcurH : s.curH = 0xFF := BitVec.eq_of_toNat_eq (show s.curH.toNat = 255 by omega)
    have hcurL : s.curL = 0xFF := BitVec.eq_of_toNat_eq (show s.curL.toNat = 255 by omega)
    rw [advance, if_pos hcurL, cursor, cursor, hcurH, hcurL]
    exact (by decide : busAddr (0xFF + 1) 0 = busAddr 0xFF 0xFF + 1)

/-- Settles O34: the two cases are the branches of `Advance()`, and each adds one to the cursor. -/
theorem advanceStepsTheCursor : Obligations.AdvanceStepsTheCursor := by
  unfold Obligations.AdvanceStepsTheCursor
  exact fun s => ⟨cursor_advance s, fun hl => if_pos hl, fun hl => if_neg hl⟩

/-! ### The receive step -/

theorem modeStep_of_receiveStream {s : State} (h : s.mode = .receiveStream) : modeStep s = .next (receiveStep s) := by
  rw [modeStep, h]

theorem modeStep_of_transmitStream {s : State} (h : s.mode = .transmitStream) : modeStep s = transmitStep s := by
  rw [modeStep, h]

/-- A row of writes at the cursor leaves the bytes below and above the row alone. -/
theorem read_writeAll_cursorAddrs_outside {s : State} {bs : List Byte}
    (h : (cursor s).toNat + bs.length ≤ spaceSize) (m : Memory) {a : Nat}
    (ha : a < (cursor s).toNat ∨ (cursor s).toNat + bs.length ≤ a) :
    (m.writeAll ((cursorAddrs s bs.length).zip bs)).read a = m.read a := by
  refine Memory.read_writeAll_other (fun w hw e => ?_) m
  have hmem := List.mem_map_of_mem (f := fun w : Addr × Byte => lowAddr w.1) hw
  rw [lowAddr_zip_cursorAddrs h] at hmem
  obtain ⟨k, hk, hka⟩ := List.mem_map.1 hmem
  rw [List.mem_range] at hk
  omega

/-- What the receive loop has done when it has taken `n` bytes of IN (R162): they stand in MEM from the cursor on, the
cursor and REMAIN have moved by `n`, and HIST has one write for each. -/
structure TookFromIn (n : Nat) (s t : State) : Prop where
  stored    : ∀ k, ∀ hk : k < s.inWin.length, k < n → t.mem.read ((cursor s).toNat + k) = s.inWin[k]
  others    : ∀ a, (a < (cursor s).toNat ∨ (cursor s).toNat + n ≤ a) → t.mem.read a = s.mem.read a
  advanced  : (cursor t).toNat = (cursor s).toNat + n
  remaining : t.remain.toNat = s.remain.toNat - n
  state     : t = { s with
    curH := t.curH, curL := t.curL, remain := t.remain, mem := t.mem, inWin := s.inWin.drop n
    hist := writeEvents ((cursorAddrs s n).zip s.inWin) ++ s.hist }

theorem receiveBytes_eq_min (s : State) {n : Nat} (hn : n = min s.remain.toNat s.inWin.length) :
    receiveBytes s.inWin s = { receiveAll (s.inWin.take n) s with inWin := s.inWin.drop n } := by
  rw [receiveBytes_eq, List.take_eq_take_min, List.drop_eq_drop_min, hn]

theorem cursorAddrs_zip_take (s : State) {n : Nat} {bs : List Byte} (hn : n ≤ bs.length) :
    (cursorAddrs s n).zip (bs.take n) = (cursorAddrs s n).zip bs := by
  rw [List.zip_eq_zip_take_min (l₂ := bs), cursorAddrs_length, Nat.min_eq_left hn,
    List.take_of_length_le (cursorAddrs_length s n).le]

/-- At a stream position the loop takes REMAIN bytes, or all there are, without leaving the memory. -/
theorem receiveBytes_tookFromIn {s : State} (hpos : atStreamPosition s) {n : Nat}
    (hn : n = min s.remain.toNat s.inWin.length) : TookFromIn n s (receiveBytes s.inWin s) := by
  obtain ⟨hle, hcur⟩ := hpos
  have hlen : (s.inWin.take n).length = n := by rw [List.length_take]; omega
  have hin : (cursor s).toNat + (s.inWin.take n).length ≤ spaceSize := by omega
  obtain ⟨hc, hall⟩ := receiveAll_inside hin
  rw [receiveBytes_eq_min s hn]
  refine ⟨fun k hk hkn => ?_, fun a ha => ?_, hc.trans (by rw [hlen]), ?_, ?_⟩
  · rw [hall]
    exact (read_writeAll_cursorAddrs_inside hin s.mem (hkn.trans_eq hlen.symm)).trans List.getElem_take
  · rw [hall]
    exact read_writeAll_cursorAddrs_outside hin s.mem (by rwa [hlen])
  · have hlt := s.remain.isLt
    rw [hall, hlen]
    simp only [BitVec.toNat_sub, BitVec.toNat_ofNat]
    omega
  · rw [hall, hlen, cursorAddrs_zip_take s (by omega)]

/-- Settles O35: the loop takes all of IN, so REMAIN does not reach 0 and the step is the loop alone. -/
theorem receiveStepStoresEveryByte : Obligations.ReceiveStepStoresEveryByte := by
  unfold Obligations.ReceiveStepStoresEveryByte
  intro s hm hpos hshort
  have h := receiveBytes_tookFromIn hpos (Nat.min_eq_right hshort.le).symm
  have hrem : (receiveBytes s.inWin s).remain ≠ 0 := fun e => by
    have hzero : (receiveBytes s.inWin s).remain.toNat = 0 := congrArg BitVec.toNat e
    have hleft := h.remaining
    omega
  have hstep : receiveStep s = receiveBytes s.inWin s := if_neg hrem
  refine ⟨receiveBytes s.inWin s, (modeStep_of_receiveStream hm).trans (congrArg _ hstep),
    fun k hk => h.stored k hk hk, h.others, h.advanced, h.remaining, ?_⟩
  rw [← List.drop_length (l := s.inWin)]
  exact h.state

/-- After the last byte of MEM the cursor registers hold 0x80 and 0x00 (R163). -/
theorem cursor_registers_at_end {s : State} (h : (cursor s).toNat = 32768) : s.curH = 0x80 ∧ s.curL = 0x00 := by
  have hL := s.curL.isLt
  rw [cursor_toNat] at h
  exact ⟨BitVec.eq_of_toNat_eq (show s.curH.toNat = 128 by omega),
    BitVec.eq_of_toNat_eq (show s.curL.toNat = 0 by omega)⟩

/-- Settles O36: the loop takes REMAIN bytes of IN, and finding REMAIN = 0 the same step completes (D16). -/
theorem receiveStepCompletes : Obligations.ReceiveStepCompletes := by
  unfold Obligations.ReceiveStepCompletes
  intro s hm hpos hone hfull
  have h := receiveBytes_tookFromIn hpos (Nat.min_eq_left hfull).symm
  obtain ⟨hle, hcur⟩ := hpos
  simp only [spaceSize] at hle hcur
  have hend : (cursor s).toNat + s.remain.toNat = 32768 := by omega
  have hrem : (receiveBytes s.inWin s).remain = 0 := BitVec.eq_of_toNat_eq (h.remaining.trans (Nat.sub_self _))
  obtain ⟨hcurH, hcurL⟩ := cursor_registers_at_end (h.advanced.trans hend)
  have hstep : receiveStep s = completeStream (receiveBytes s.inWin s) := if_pos hrem
  have hstate := h.state
  rw [hrem, hcurH, hcurL] at hstate
  refine ⟨completeStream (receiveBytes s.inWin s), (modeStep_of_receiveStream hm).trans (congrArg _ hstep), h.stored,
    fun a ha => h.others a (by rwa [hend]), ?_⟩
  rw [hstate]
  rfl

/-! ### The transmit step -/

/-- The reads of a chunk change the cursor, REMAIN and HIST only, while they stay inside the memory. -/
theorem afterChunk_inside {s : State} (h : (cursor s).toNat + chunkLength s ≤ spaceSize) :
    afterChunk s = { s with
      curH := (afterChunk s).curH, curL := (afterChunk s).curL, remain := (afterChunk s).remain
      hist := readEvents (cursorAddrs s (chunkLength s)) (bytesFromCursor s (chunkLength s)) ++ s.hist } := by
  obtain ⟨-, -, hstate⟩ := transmitBytes_inside h
  rw [bytesAt_cursorAddrs h] at hstate
  simp only [afterChunk]
  rw [hstate]

theorem bytesFromCursor_eq_map_range (s : State) (n : Nat) :
    bytesFromCursor s n = (List.range n).map (fun k => s.mem.read ((cursor s).toNat + k)) := by
  rw [bytesFromCursor, List.range'_eq_map_range, List.map_map]
  rfl

/-- With OUT empty and room for the chunk, the step is its reads and the install of their bytes. -/
theorem transmitStep_of_room {s : State} (h : (cursor s).toNat + chunkLength s ≤ spaceSize) (hr : s.remain ≠ 0)
    (ho : s.outWin = []) (hroom : chunkLength s ≤ s.cfg.outCap) :
    transmitStep s = .next { afterChunk s with outWin := bytesFromCursor s (chunkLength s) } := by
  obtain ⟨-, hbytes, -⟩ := transmitBytes_inside h
  rw [transmitStep, if_neg hr, if_neg (fun hne => hne ho), hbytes, bytesAt_cursorAddrs h, outInstall_next,
    afterChunk_inside h]
  exact ⟨ho, (bytesFromCursor_length s _).trans_le hroom, rfl⟩

/-- Settles O37: with OUT non-empty the step waits (R164); else it sends one chunk (D17) of the next bytes of MEM. -/
theorem transmitStepFillsOneChunk : Obligations.TransmitStepFillsOneChunk := by
  unfold Obligations.TransmitStepFillsOneChunk
  intro s n hm hr
  rw [modeStep_of_transmitStream hm]
  refine ⟨fun ho => ?_, fun ho ⟨hle, hcur⟩ hn hroom => ?_⟩
  · rw [transmitStep, if_neg hr, if_pos ho]
  · obtain rfl : n = chunkLength s := hn
    have hin : (cursor s).toNat + chunkLength s ≤ spaceSize := by
      have : chunkLength s ≤ s.remain.toNat := Nat.min_le_left _ _
      omega
    have hc := (transmitBytes_inside hin).1
    refine ⟨_, transmitStep_of_room hin hr ho hroom, bytesFromCursor_eq_map_range s _, hc,
      afterDrainedChunk_remain s, ?_⟩
    rw [afterChunk_inside hin]

/-- Settles O38: completion is the first branch of the step, before OUT is looked at. -/
theorem transmitStepCompletes : Obligations.TransmitStepCompletes := by
  unfold Obligations.TransmitStepCompletes
  intro s hm hr
  rw [modeStep_of_transmitStream hm]
  exact if_pos hr

end Sys2Proof.Machine
end

section
/-! PROOFS. The access modes (R216): in Command mode, locked or in passthrough, whatever an iteration does reaches no
memory. The commands without a guard make no access, the guarded ones do not run, and Reset makes none either. -/

namespace Sys2Proof.Machine

theorem accessMode_eq_open {f : Flags} (hu : f.u = true) (hp : f.p = false) : accessMode f = .open := by
  simp [accessMode, hu, hp]

/-- From `s` to `t`, in Command mode, nothing reached memory: MEM is kept, and HIST has grown by no access. -/
structure ReachesNoMemory (s t : State) : Prop where
  mem  : t.mem = s.mem
  mode : t.mode = .command
  hist : ∃ es : List BusEvent, t.hist = es ++ s.hist ∧ ∀ e ∈ es, e.isAccess = false

theorem reachesNoMemory_refl {s : State} (hm : s.mode = .command) : ReachesNoMemory s s := ⟨rfl, hm, [], rfl, by simp⟩

/-- A command without a guard makes at most one event, of the lines. -/
theorem commandEffect_reachesNoMemory {i : Instr} {s : State} (hg : guardOf i = none) (hm : s.mode = .command) :
    ReachesNoMemory s (commandEffect i s) := by
  cases i with
  | ping p => exact reachesNoMemory_refl hm
  | version => exact reachesNoMemory_refl hm
  | status => exact reachesNoMemory_refl hm
  | setUnlocked b => exact ⟨rfl, hm, [], rfl, by simp⟩
  | setPassthrough b => exact ⟨rfl, hm, [.lines _], rfl, by simp [BusEvent.isAccess]⟩
  | setReset b => exact ⟨rfl, hm, [.lines _], rfl, by simp [BusEvent.isAccess]⟩
  | readBlock h => cases hg
  | writeBlock h data => cases hg
  | rxStream => cases hg
  | txStream => cases hg

theorem resetState_reachesNoMemory (s : State) : ReachesNoMemory s (resetState s) :=
  ⟨rfl, rfl, [.lines _, .cfg .idle], rfl, by simp [BusEvent.isAccess]⟩

/-- A command that runs while the access mode refuses has no guard, and an error only responds (R104, R105). -/
theorem modeStep_reachesNoMemory {s t : State} (hm : s.mode = .command) (ha : accessMode s.flags ≠ .open)
    (h : modeStep s = .next t) : ReachesNoMemory s t := by
  rcases modeStep_next h with ⟨-, hcommand⟩ | ⟨hm', -⟩ | ⟨hm', -⟩
  · rcases hcommand with rfl | rfl | ⟨e, -⟩ | ⟨_, i, -, -, hguard, -, rfl⟩
    · exact reachesNoMemory_refl hm
    · exact { reachesNoMemory_refl hm with }
    · rw [e]
      exact { reachesNoMemory_refl hm with }
    · have hg : guardOf i = none := by
        by_contra hsome
        obtain ⟨hu, hp⟩ := hguard hsome
        exact ha (accessMode_eq_open hu hp)
      exact { commandEffect_reachesNoMemory (s := afterFeed s) hg hm with }
  · cases hm.symm.trans hm'
  · cases hm.symm.trans hm'

theorem seqPart_reachesNoMemory {s t : State} (hm : s.mode = .command) (ha : accessMode s.flags ≠ .open)
    (h : seqPart s = .next t) : ReachesNoMemory s t := by
  rcases seqPart_cases s with ⟨-, e⟩ | ⟨rst, tick, e⟩
  · have hquiet := modeStep_reachesNoMemory (by simpa using hm) (by simpa using ha) (e.symm.trans h)
    rw [ticked_state] at hquiet
    exact { hquiet with }
  · cases e.symm.trans h
    exact { resetState_reachesNoMemory { s with rstLatch := rst, tickLatch := tick } with }

@[simp] theorem environment_mode (d : Draw) (s : State) : (environment d s).mode = s.mode := by
  rw [environment_state]

/-- Settles O56: the sequencer's part is a Reset or a mode step, neither of which reaches memory, and the environment's
part writes neither MEM, MODE nor HIST. -/
theorem refusedModesReachNoMemory : Obligations.RefusedModesReachNoMemory := by
  unfold Obligations.RefusedModesReachNoMemory
  intro s t hm ha h
  obtain ⟨x, hx, rfl⟩ := step_next.1 h
  obtain ⟨hmem, hmode, hhist⟩ := seqPart_reachesNoMemory hm ha hx
  rw [startIteration_hist] at hhist
  exact ⟨by rw [environment_mem, hmem], by rw [environment_mode, hmode], by rwa [environment_hist]⟩

end Sys2Proof.Machine
end

section
/-! PROOFS. No fatal state (R202): where the parameters meet the premises on OUT_CAP, each rule tests OUT before it
installs anything, and what it installs fits. -/

namespace Sys2Proof.Machine

theorem exec_answers (i : Instr) {s : State} (ho : s.outWin = []) (hf : ConfigFits s.cfg) :
    ∃ t, exec i s = .next t := by
  rcases exec_cases i s with ⟨hg, hw, -⟩ | ⟨c, hc, e⟩
  · exact ⟨_, exec_ok hw hg (canRespond_of_fits ho hf (.inl (okPayload_length hw s)))⟩
  · rw [e]
    exact takeCause_fits hc ho hf

theorem dispatch_answers (r : Request) {s : State} (ho : s.outWin = []) (hf : ConfigFits s.cfg) :
    ∃ t, dispatch r s = .next t := by
  rcases dispatch_cases r s with ⟨i, -, e⟩ | ⟨_, -, e⟩
  · rw [e]
    exact exec_answers i ho hf
  · rw [e]
    exact takeCause_fits rfl ho hf

theorem commandStep_answers {s : State} (hf : ConfigFits s.cfg) : ∃ t, commandStep s = .next t := by
  rcases commandStep_cases s with ⟨-, e⟩ | ⟨-, -, e⟩ | ⟨ho, r, -, e⟩
  · exact ⟨_, e⟩
  · exact ⟨_, e⟩
  · rw [e]
    exact dispatch_answers r ho hf

/-- A chunk has at most CHUNK_MAX bytes, and CHUNK_MAX is at most OUT_CAP (R164). -/
theorem transmitBytes_fits {s : State} (hf : ConfigFits s.cfg) :
    (transmitBytes (chunkLength s) s).1.length ≤ s.cfg.outCap := by
  obtain ⟨_, -, hlen, -⟩ := transmitBytes_state (chunkLength s) s
  calc (transmitBytes (chunkLength s) s).1.length
    _ = chunkLength s := hlen
    _ ≤ s.cfg.chunkMax := Nat.min_le_right _ _
    _ ≤ s.cfg.outCap := hf.1

theorem afterChunk_outWin (s : State) : (afterChunk s).outWin = s.outWin := by
  obtain ⟨_, e⟩ := afterChunk_state s
  rw [e]

theorem transmitStep_answers {s : State} (hf : ConfigFits s.cfg) : ∃ t, transmitStep s = .next t := by
  rcases transmitStep_cases s with ⟨-, e⟩ | ⟨-, -, e⟩ | ⟨-, ho, e⟩
  · exact ⟨_, e⟩
  · exact ⟨_, e⟩
  · rw [e]
    have hfit := transmitBytes_fits hf
    rw [← (afterChunk_keepsOwnFields s).cfg] at hfit
    exact ⟨_, outInstall_next.2 ⟨(afterChunk_outWin s).trans ho, hfit, rfl⟩⟩

theorem modeStep_answers {s : State} (hf : ConfigFits s.cfg) : ∃ t, modeStep s = .next t := by
  cases hm : s.mode with
  | command => rw [modeStep_of_command hm]; exact commandStep_answers hf
  | receiveStream => exact ⟨_, modeStep_of_receiveStream hm⟩
  | transmitStream => rw [modeStep_of_transmitStream hm]; exact transmitStep_answers hf

@[simp] theorem ticked_cfg (s : State) : (ticked s).cfg = s.cfg := by rw [ticked_state]

@[simp] theorem startIteration_cfg (s : State) : (startIteration s).cfg = s.cfg := by rw [startIteration_state]

theorem seqPart_answers {s : State} (hf : ConfigFits s.cfg) : ∃ t, seqPart s = .next t := by
  rcases seqPart_cases s with ⟨-, e⟩ | ⟨_, _, e⟩
  · rw [e]
    exact modeStep_answers (by rwa [ticked_cfg])
  · exact ⟨_, e⟩

/-- Settles O54: a Reset always answers, a mode step answers where every response and chunk fits, and the environment's
part follows either. -/
theorem everyStepAnswersANextState : Obligations.EveryStepAnswersANextState := by
  unfold Obligations.EveryStepAnswersANextState
  intro s hf
  obtain ⟨x, hx⟩ := seqPart_answers (s := startIteration s) (by rwa [startIteration_cfg])
  exact ⟨_, step_next.2 ⟨x, hx, rfl⟩⟩

end Sys2Proof.Machine
end

section
/-! PROOFS. The checks of an iteration and the other signals (R204 to R207): the bus reset comes first, the watchdog
counts a pending tick on the state before the mode step. -/

namespace Sys2Proof.Machine

/-- Settles O42: the bus-reset check comes before everything else, and the environment's part follows the Reset. -/
theorem busResetIsTakenFirst : Obligations.BusResetIsTakenFirst := by
  unfold Obligations.BusResetIsTakenFirst
  exact fun s h => step_next.2 ⟨_, seqPart_busReset h, rfl⟩

theorem stalled_iff {s : State} : stalled s = true ↔
    ((s.mode = .command ∨ s.mode = .transmitStream) ∧ s.outWin ≠ []) ∨ (s.mode = .receiveStream ∧ s.inWin = []) := by
  cases hm : s.mode <;> simp [stalled, hm]

theorem nextStall_of_stalled {s : State} (h : stalled s = true) : nextStall s = s.stall + 1 := if_pos h

theorem nextStall_of_progress {s : State} (h : stalled s = false) : nextStall s = 0 := by
  simp [nextStall, h]

/-- Within the limit STALL counts without wrapping. -/
theorem stall_succ_toNat {s : State} (h : s.stall.toNat ≤ 1000) : (s.stall + 1).toNat = s.stall.toNat + 1 := by
  bv_omega

/-- A pending tick that keeps STALL within the limit is counted, and the mode step follows. -/
theorem seqPart_countedTick {s : State} (hr : s.rstLatch = false) (ht : s.tickLatch = true)
    (hle : (nextStall s).toNat ≤ stallLimit) :
    seqPart s = modeStep { s with tickLatch := false, stall := nextStall s } := by
  rw [seqPart_noReset ⟨hr, fun _ => hle⟩, ticked, if_pos ht]

/-- Settles O43: STALL after the count decides, and it is 0, or one more without a wrap. -/
theorem watchdogCountsStalledTicks : Obligations.WatchdogCountsStalledTicks := by
  unfold Obligations.WatchdogCountsStalledTicks
  intro s st hr ht hle hst
  obtain rfl : st = stalled s := Bool.eq_iff_iff.2 (hst.trans stalled_iff.symm)
  have hsucc := stall_succ_toNat hle
  refine ⟨fun h => ?_, fun h hlt => ?_, fun h heq => ?_⟩
  · rw [← nextStall_of_progress h]
    exact seqPart_countedTick hr ht (by simp [nextStall_of_progress h])
  · rw [← nextStall_of_stalled h]
    exact seqPart_countedTick hr ht (by rw [nextStall_of_stalled h, hsucc]; exact hlt)
  · exact seqPart_stall hr ht (by rw [nextStall_of_stalled h, hsucc, heq]; decide)

/-- Settles O46: the three signals have no effect in the events between iterations. -/
theorem otherSignalsChangeNothing : Obligations.OtherSignalsChangeNothing := by
  unfold Obligations.OtherSignalsChangeNothing
  exact fun s => ⟨rfl, rfl, rfl⟩

end Sys2Proof.Machine
end

section
/-! PROOFS. Power-up, quiescence and the stall that a host cannot leave unattended (R240, R245, R253). -/

namespace Sys2Proof.Machine

/-- Settles O51: every register is read off the state at power-up. -/
theorem bootState : Obligations.BootState := by
  unfold Obligations.BootState
  exact ⟨fun _ _ => ⟨rfl, rfl, rfl, rfl, rfl, rfl, rfl, rfl, rfl, rfl, rfl, rfl, rfl, rfl, rfl⟩,
    resetConfig, [], rfl⟩

/-! ### The iteration's parts where nothing but ticks happens -/

/-- With nothing to deliver and nothing to drain, or a transport that does neither, ENV does nothing (R39). -/
theorem environment_of_noTransport {d : Draw} {s : State} (hrefill : s.hostIn = [] ∨ d.chunkAvail = false)
    (hdrain : s.outWin = [] ∨ d.ready = false) : environment d s = s := by
  have hkeep : refillInbound d.chunkAvail s = s :=
    (refillTakesOneChunk s d.chunkAvail).2 (.inr (hrefill.imp_right .inl))
  rw [environment, hkeep]
  rcases drainOutbound_cases d.ready s with e | ⟨hready, hout, -⟩
  · exact e
  · rcases hdrain with hempty | hnot
    · exact absurd hempty hout
    · simp [hnot] at hready

/-- Timer ticks before an iteration set TICK_LATCH and nothing else (R40). -/
theorem startIteration_of_ticks {s : State} (h : ∀ e ∈ (nextDraw s).events, e = .tick) :
    startIteration s = { s with tickLatch := s.tickLatch || decide (EnvEvent.tick ∈ (nextDraw s).events),
                                draws := s.draws.tail } := by
  obtain ⟨hrst, htick, hstate⟩ := eventsOnlySetLatches { s with draws := s.draws.tail } (nextDraw s).events
  have hno : EnvEvent.busReset ∉ (nextDraw s).events := fun hmem => nomatch h _ hmem
  rw [startIteration, hstate fun e he => .inr (h e he), hrst, htick]
  simp [hno]

/-- TICK_LATCH is clear after the count, and only STALL moves with it. -/
theorem ticked_cleared (s : State) : ticked s = { s with tickLatch := false, stall := (ticked s).stall } := by
  cases h : s.tickLatch with
  | false => rw [ticked_of_noTick h, ← h]
  | true => rw [ticked, if_pos h]

theorem ticked_stall_of_tick {s : State} (h : s.tickLatch = true) : (ticked s).stall = nextStall s := by
  rw [ticked, if_pos h]

/-! ### Quiescence -/

theorem quiescent_iff {s : State} : s.quiescent = true ↔
    s.mode = .command ∧ s.inWin = [] ∧ s.outWin = [] ∧ s.rstLatch = false ∧ s.hostIn = [] := decide_eq_true_iff

/-- An empty IN feeds nothing to the codec. -/
theorem commandStep_of_windowsEmpty {s : State} (hin : s.inWin = []) (hout : s.outWin = []) :
    commandStep s = .next s := by
  have hfed : fedFrom s = ⟨s.dec, [], none⟩ := by rw [fedFrom, hin, feed]
  rw [commandStep_of_noRequest hout (by rw [hfed]), afterFeed, hfed, ← hin]

/-- A quiescent state has nothing in flight, so a tick finds progress (R207). -/
theorem nextStall_of_quiescent {s : State} (h : s.quiescent = true) : nextStall s = 0 := by
  obtain ⟨hm, -, hout, -⟩ := quiescent_iff.1 h
  exact nextStall_of_progress (by simp [stalled, hm, hout])

theorem seqPart_of_quiescent {s : State} (h : s.quiescent = true) : seqPart s = .next (ticked s) := by
  have hstall := nextStall_of_quiescent h
  obtain ⟨hm, hin, hout, hr, -⟩ := quiescent_iff.1 h
  rw [seqPart_noReset ⟨hr, fun _ => by simp [hstall]⟩, modeStep_of_command ((ticked_mode s).trans hm)]
  refine commandStep_of_windowsEmpty ?_ ?_ <;> rw [ticked_state] <;> assumption

theorem startIteration_quiescent {s : State} (h : s.quiescent = true) (ht : ∀ e ∈ (nextDraw s).events, e = .tick) :
    (startIteration s).quiescent = true := by
  rw [startIteration_of_ticks ht]
  exact h

/-- From a quiescent state an iteration with only ticks comes to the count. -/
theorem step_of_quiescent {s : State} (h : s.quiescent = true) (ht : ∀ e ∈ (nextDraw s).events, e = .tick) :
    step s = .next (ticked (startIteration s)) := by
  have hq := startIteration_quiescent h ht
  obtain ⟨-, -, hout, -, hhost⟩ := quiescent_iff.1 hq
  refine step_next.2 ⟨_, seqPart_of_quiescent hq, (environment_of_noTransport (.inl ?_) (.inl ?_)).symm⟩ <;>
    rw [ticked_state] <;> assumption

/-- Settles O59: the step comes to the count of a tick, which finds no stall (D36). -/
theorem quiescentStateStays : Obligations.QuiescentStateStays := by
  unfold Obligations.QuiescentStateStays
  intro s hs ht
  have hstart := startIteration_of_ticks ht
  refine ⟨_, step_of_quiescent hs ht, ?_, fun htick => ?_, fun hnone hlatch => ?_⟩
  · rw [ticked_cleared]
    generalize (ticked (startIteration s)).stall = n
    rw [hstart]
  · have hlatch : (startIteration s).tickLatch = true := by
      rw [hstart]
      rcases htick with hne | hlatch
      · obtain ⟨e, he⟩ := List.exists_mem_of_ne_nil _ hne
        have hmem : EnvEvent.tick ∈ (nextDraw s).events := ht e he ▸ he
        simp [hmem]
      · simp [hlatch]
    rw [ticked_stall_of_tick hlatch, nextStall_of_quiescent (startIteration_quiescent hs ht)]
  · rw [ticked_of_noTick (by simp [hstart, hnone, hlatch]), hstart]

/-! ### Runs -/

theorem runSteps_succ_of_next {s t : State} (h : step s = .next t) (k : Nat) :
    runSteps (k + 1) s = runSteps k t := by
  rw [runSteps, h]

theorem runSteps_add_of_next {n : Nat} {s t : State} (h : runSteps n s = .next t) (k : Nat) :
    runSteps (n + k) s = runSteps k t := by
  induction n generalizing s with
  | zero => cases h; rw [Nat.zero_add]
  | succ n ih =>
    rw [runSteps] at h
    cases hs : step s with
    | next x =>
      rw [hs] at h
      rw [Nat.succ_add, runSteps_succ_of_next hs, ih h]
    | fault e => rw [hs] at h; cases h
    | refused e => rw [hs] at h; cases h

/-! ### Stalled ticks -/

/-- Up to the limit a stalled tick counts without a wrap. -/
theorem nextStall_toNat_of_stalled {s : State} (h : stalled s = true) (hle : s.stall.toNat ≤ 1000) :
    (nextStall s).toNat = s.stall.toNat + 1 := by
  rw [nextStall_of_stalled h, stall_succ_toNat hle]

/-- An iteration with a timer tick before it and no transport step after it (R245). -/
abbrev tickDraw : Draw := ⟨[.tick], false, false⟩

/-- Stalled, with items 1 to 4 of R41, and no bus reset pending. -/
structure Waiting (s : State) : Prop where
  stalled  : stalled s = true
  modeInv  : ModeInv s
  rstLatch : s.rstLatch = false

/-- `t` is `s` after `n` stalled ticks: still waiting, with the ticks counted and their draws taken. MODE and BUS_CFG
are not kept: a transmit stream with REMAIN = 0 completes although OUT is not drained (R165). -/
structure WaitedTicks (n : Nat) (s t : State) : Prop where
  waiting : Waiting t
  flags   : t.flags = s.flags
  outWin  : t.outWin = s.outWin
  mem     : t.mem = s.mem
  cfg     : t.cfg = s.cfg
  stall   : t.stall.toNat = s.stall.toNat + n
  draws   : t.draws = s.draws.drop n

theorem waitedTicks_zero {s : State} (h : Waiting s) : WaitedTicks 0 s s := ⟨h, rfl, rfl, rfl, rfl, rfl, rfl⟩

theorem waitedTicks_trans {m n : Nat} {s t u : State} (h : WaitedTicks m s t) (k : WaitedTicks n t u) :
    WaitedTicks (m + n) s u where
  waiting := k.waiting
  flags   := k.flags.trans h.flags
  outWin  := k.outWin.trans h.outWin
  mem     := k.mem.trans h.mem
  cfg     := k.cfg.trans h.cfg
  stall   := by rw [k.stall, h.stall, Nat.add_assoc]
  draws   := by rw [k.draws, h.draws, List.drop_drop]

/-- A stalled receive stream has no byte to store, and REMAIN ≥ 1 keeps it from completing (R162). -/
theorem receiveStep_of_inEmpty {s : State} (hin : s.inWin = []) (hrem : 1 ≤ s.remain.toNat) : receiveStep s = s := by
  have hnone : receiveBytes s.inWin s = s := by
    rw [hin, receiveBytes, ← hin]
  have hne : s.remain ≠ 0 := fun h => by simp [h] at hrem
  rw [receiveStep, hnone, if_neg hne]

/-- The mode step of a stalled machine waits, or completes a transmit stream. -/
theorem modeStep_of_waiting {s : State} (h : Waiting s) :
    modeStep s = .next s ∨ (s.outWin ≠ [] ∧ modeStep s = .next (completeStream s)) := by
  obtain ⟨hst, hinv, -⟩ := h
  cases hm : s.mode with
  | command =>
    have hout : s.outWin ≠ [] := by simpa [stalled, hm] using hst
    exact .inl (undrainedResponseHoldsCommandMode s hm hout)
  | receiveStream =>
    have hin : s.inWin = [] := by simpa [stalled, hm] using hst
    obtain ⟨-, hrem, -⟩ := (modeInv_receiveStream hm).1 hinv
    exact .inl (by rw [modeStep_of_receiveStream hm, receiveStep_of_inEmpty hin hrem])
  | transmitStream =>
    have hout : s.outWin ≠ [] := by simpa [stalled, hm] using hst
    rw [modeStep_of_transmitStream hm]
    rcases transmitStep_cases s with ⟨-, e⟩ | ⟨-, -, e⟩ | ⟨-, hempty, -⟩
    · exact .inr ⟨hout, e⟩
    · exact .inl e
    · exact absurd hempty hout

theorem modeStep_waits {s : State} (h : Waiting s) : ∃ t, modeStep s = .next t ∧ WaitedTicks 0 s t := by
  rcases modeStep_of_waiting h with e | ⟨hout, e⟩
  · exact ⟨s, e, waitedTicks_zero h⟩
  · have hw : Waiting (completeStream s) := ⟨by simp [stalled, hout], (modeInv_command rfl).2 rfl, h.rstLatch⟩
    exact ⟨_, e, hw, rfl, rfl, rfl, rfl, rfl, rfl⟩

section
variable {s : State} (hw : Waiting s) (hd : nextDraw s = tickDraw)
include hd

theorem startIteration_of_tickDraw : startIteration s = { s with tickLatch := true, draws := s.draws.tail } := by
  rw [startIteration_of_ticks (by simp [hd]), hd]
  simp

theorem step_of_tickDraw {t : State} (h : seqPart (startIteration s) = .next t) : step s = .next t :=
  step_next.2 ⟨t, h, (environment_of_noTransport (.inr (by rw [hd])) (.inr (by rw [hd]))).symm⟩

include hw

/-- Below the limit a stalled tick is counted, and the mode step waits. -/
theorem step_of_stalledTick (hlt : s.stall.toNat < 1000) : ∃ t, step s = .next t ∧ WaitedTicks 1 s t := by
  have hnext := nextStall_toNat_of_stalled hw.stalled hlt.le
  have hcount : WaitedTicks 1 s { s with tickLatch := false, stall := nextStall s, draws := s.draws.tail } :=
    ⟨⟨hw.stalled, hw.modeInv, hw.rstLatch⟩, rfl, rfl, rfl, rfl, hnext, List.drop_one.symm⟩
  obtain ⟨t, hmode, hwait⟩ := modeStep_waits hcount.waiting
  refine ⟨t, step_of_tickDraw hd ?_, waitedTicks_trans hcount hwait⟩
  rw [startIteration_of_tickDraw hd, ← hmode]
  exact seqPart_countedTick hw.rstLatch rfl (hnext.trans_le hlt)

/-- At the limit a stalled tick takes Reset. -/
theorem step_of_lastStalledTick (hstall : s.stall.toNat = 1000) :
    step s = .next (resetState { s with tickLatch := false, draws := s.draws.tail }) := by
  refine step_of_tickDraw hd ?_
  have hpast : stallLimit < (nextStall s).toNat := by
    rw [nextStall_toNat_of_stalled hw.stalled hstall.le, hstall]
    decide
  rw [startIteration_of_tickDraw hd]
  exact seqPart_stall hw.rstLatch rfl hpast

end

/-- By induction on the ticks: as long as the limit is not passed, a run of stalled ticks only waits. -/
theorem runSteps_of_stalledTicks {n : Nat} {s : State} {rest : List Draw} (hw : Waiting s)
    (hd : s.draws = List.replicate n tickDraw ++ rest) (hle : s.stall.toNat + n ≤ 1000) :
    ∃ t, runSteps n s = .next t ∧ WaitedTicks n s t := by
  induction n generalizing s with
  | zero => exact ⟨s, rfl, waitedTicks_zero hw⟩
  | succ n ih =>
    obtain ⟨t, hstep, hone⟩ := step_of_stalledTick hw (by rw [nextDraw, hd]; rfl) (by omega)
    obtain ⟨u, hrun, hrest⟩ := ih hone.waiting (by rw [hone.draws, hd]; rfl) (by rw [hone.stall]; omega)
    exact ⟨u, by rw [runSteps_succ_of_next hstep, hrun], Nat.add_comm n 1 ▸ waitedTicks_trans hone hrest⟩

/-- Settles O44: 1000 stalled ticks only count, and the state they leave takes Reset at the next one (D4, D5). -/
theorem stalledTicksEndInReset : Obligations.StalledTicksEndInReset := by
  unfold Obligations.StalledTicksEndInReset
  intro s rest hst hinv hr hzero hd
  have hsplit : s.draws = List.replicate 1000 tickDraw ++ tickDraw :: rest := by
    rw [hd, List.replicate_succ', List.append_assoc, List.singleton_append]
  obtain ⟨t, hrun, hwait⟩ := runSteps_of_stalledTicks ⟨hst, hinv, hr⟩ hsplit (by rw [hzero]; rfl)
  have hstall : t.stall.toNat = 1000 := by rw [hwait.stall, hzero]; rfl
  have hdraws : t.draws = tickDraw :: rest := by
    rw [hwait.draws, hsplit, List.drop_left' List.length_replicate]
  have hlast := step_of_lastStalledTick hwait.waiting (by rw [nextDraw, hdraws]; rfl) hstall
  refine ⟨⟨t, hrun, hstall, hwait.flags, hwait.outWin⟩, _,
    (runSteps_add_of_next hrun 1).trans (runSteps_succ_of_next hlast 0),
    rfl, rfl, rfl, rfl, rfl, rfl, rfl, rfl, congrArg Config.codecReset hwait.cfg, hwait.mem, ?_⟩
  exact congrArg List.tail hdraws

end Sys2Proof.Machine
end

section
/-! PROOFS. The reference framing (DESIGN CHOICE, log entry 2): the two length bytes give the payload's length back,
and of the bytes after them only the last one completes a request (R10, R102, D19). -/

namespace Sys2Proof.Machine

variable {op : Byte} {p : List Byte}

/-- A byte that completes a request ends the feeding, and the bytes after it stay in IN (R102). -/
theorem feed_cons_of_complete {c : Codec} {d d' : DecState} {b : Byte} {r : Request}
    (h : codecDecode c d b = (d', some r)) (bs : List Byte) : feed c d (b :: bs) = ⟨d', bs, some r⟩ := by
  rw [feed, h]

/-- The length a decoder reads from the two bytes is the length they were made from, below 65536. -/
theorem lenBytes_value {n : Nat} (h : n < 65536) :
    256 * (BitVec.ofNat 8 (n / 256)).toNat + (BitVec.ofNat 8 n).toNat = n := by
  simp only [BitVec.toNat_ofNat]
  omega

theorem feed_lenBytes {n : Nat} (h : n < 65536) (bs : List Byte) :
    feed .reference .idle (lenBytes n ++ bs) = feed .reference (.opcode n) bs := by
  rw [lenBytes, List.cons_append, List.cons_append, List.nil_append, feed_cons_of_incomplete rfl,
    feed_cons_of_incomplete rfl]
  simp only [codecDecode, referenceDecode, lenBytes_value h]

/-- By induction on the payload to come: each byte but the last is put on those read, the last completes. -/
theorem feed_body (hp : p ≠ []) (got rest : List Byte) :
    feed .reference (.body op p.length got) (p ++ rest) = ⟨.idle, rest, some ⟨op, got.reverse ++ p⟩⟩ := by
  induction p generalizing got with
  | nil => exact absurd rfl hp
  | cons b bs ih =>
    cases bs with
    | nil => exact (feed_cons_of_complete rfl rest).trans (by rw [List.reverse_cons])
    | cons b' bs =>
      calc feed .reference (.body op (bs.length + 2) got) (b :: (b' :: bs ++ rest))
          = feed .reference (.body op (bs.length + 1) (b :: got)) (b' :: bs ++ rest) := feed_cons_of_incomplete rfl _
        _ = ⟨.idle, rest, some ⟨op, (b :: got).reverse ++ b' :: bs⟩⟩ := ih (List.cons_ne_nil b' bs) (b :: got)
        _ = ⟨.idle, rest, some ⟨op, got.reverse ++ b :: b' :: bs⟩⟩ := by simp

/-- Without a payload the opcode completes the request; otherwise the payload's last byte does. -/
theorem feed_opcode (rest : List Byte) :
    feed .reference (.opcode p.length) (op :: (p ++ rest)) = ⟨.idle, rest, some ⟨op, p⟩⟩ := by
  cases p with
  | nil => exact feed_cons_of_complete rfl rest
  | cons b bs => exact (feed_cons_of_incomplete rfl _).trans (feed_body (List.cons_ne_nil b bs) [] rest)

/-- Settles O22: the length bytes lead to the opcode with the payload's length, from which the frame's last byte
completes the request. -/
theorem referenceFrameDeliversItsRequest : Obligations.ReferenceFrameDeliversItsRequest := by
  unfold Obligations.ReferenceFrameDeliversItsRequest
  intro op p rest hlen
  rw [referenceFrame, List.append_assoc, feed_lenBytes hlen]
  exact feed_opcode rest

end Sys2Proof.Machine
end
